-- ==== Sys2Proof/Word.lean ====
section
/-! DEFINITION. The three port words and the values a host handles.

The widths are fixed (R5).  A word of width N is an unsigned integer in [0, 2^N - 1] and bit 0 is the least significant
(R8).  A host value is what a host variable can hold (R51) or what a caller can hand to a host call (R90, R95). -/

namespace Sys2Proof

/-- Format W3, the syndrome word (R42): bit 0 is s1, bit 1 is s2, bit 2 is s4. -/
abbrev W3 := BitVec 3

/-- Format W4, the payload word (R40): bit K is payload bit K. -/
abbrev W4 := BitVec 4

/-- Format W7, the codeword word (R41): bit i is codeword index i, that is position i + 1. -/
abbrev W7 := BitVec 7

/-- Arguments of a host call that are neither sequences of characters nor port words, as R95 lists them: integers (a negative one is no
port word), lists of integers, booleans and none-values. -/
inductive OtherArgument where
  | integer (z : Int)
  | integers (zs : List Int)
  | boolean (b : Bool)
  | noneValue
  deriving DecidableEq, Repr

/-- A value on the host's side: a word (an unsigned integer, R8), a sequence of characters with element 0 first (R9), the
value InvalidInput (one constructor with no fields, R94 and R101), or something that is none of these (R95).  PRESUMED (log 14): a character is a Unicode scalar value. -/
inductive HostValue where
  | word (n : Nat)
  | chars (cs : List Char)
  | invalidInput
  | other (o : OtherArgument)
  deriving DecidableEq, Repr

/-- The result of a host call (R94): Ok of a string, or the single error, which carries nothing. -/
inductive CallResult where
  | ok (cs : List Char)
  | invalidInput
  deriving DecidableEq, Repr

end Sys2Proof
end

