-- ==== Sys2Proof/Machine/Codec.lean ====
section
/-! DEFINITION. The functions of the three sub-blocks (R60, R70, R80), transcribed from their pseudocode, and the nets R26
names.  A net is a function of its block's input, not state. -/

namespace Sys2Proof.Machine

/-- `c[i] = b`: the word with bit `i` set to `b`. -/
def setBit (c : W7) (i : Nat) (b : Bool) : W7 :=
  if b then c ||| (1#7 <<< i) else c &&& ~~~(1#7 <<< i)

/-- R44: the covering set of the parity index `p`, as indices: those i of 0..6 with ((i+1) & (p+1)) != 0. -/
def coveringSet (p : Nat) : List Nat := (List.range 7).filter fun i => ((i + 1) &&& (p + 1)) != 0

/-- R10: the XOR of the bits of `c` at the given indices; of none of them it is 0. -/
def xorOver (c : W7) (is : List Nat) : Bool := is.foldl (fun acc i => acc ^^ c.getLsbD i) false

/-- The parity indices, in the order R60 and R70 take them (R41). -/
def parityIndices : List Nat := [0, 1, 3]

/-- R45: payload bits 0, 1, 2, 3 at codeword indices 2, 4, 5, 6, and the parity positions 0. -/
def place (d : W4) : W7 :=
  setBit (setBit (setBit (setBit 0 2 (d.getLsbD 0)) 4 (d.getLsbD 1)) 5 (d.getLsbD 2)) 6 (d.getLsbD 3)

/-- R45: the payload word { c[6], c[5], c[4], c[2] }. -/
def extract (c : W7) : W4 :=
  BitVec.ofBool (c.getLsbD 6) ++ BitVec.ofBool (c.getLsbD 5) ++ BitVec.ofBool (c.getLsbD 4) ++ BitVec.ofBool (c.getLsbD 2)

/-- R60 step 2 for one parity index: the XOR over its covering set, its own bit being 0 at that moment. -/
def fillParity (c : W7) (p : Nat) : W7 := setBit c p (xorOver c (coveringSet p))

/-- R60 with the parity indices taken in the given order. -/
def encodeInOrder (ps : List Nat) (d : W4) : W7 := ps.foldl fillParity (place d)

/-- R60: the function of hamming_7_4_encoder. -/
def ENCODE (d : W4) : W7 := encodeInOrder parityIndices d

/-- R70: parity recomputed over the covering set without the received parity bit (90_conflicts.md C1). -/
def recomputed (c : W7) (p : Nat) : Bool := xorOver c ((coveringSet p).filter (· != p))

/-- R70: the parity check of index `p`, true where the recomputed parity differs from the received bit. -/
def mismatch (c : W7) (p : Nat) : Bool := recomputed c p ^^ c.getLsbD p

/-- R70: the integer accumulator `error_pos`. -/
def errorPos (c : W7) : Nat := parityIndices.foldl (fun acc p => if mismatch c p then acc + (p + 1) else acc) 0

/-- R70: the function of syndrome_calculator. -/
def SYNDROME (c : W7) : W3 := BitVec.ofNat 3 (errorPos c)

/-- R80 step 2: the single-bit flip mask for a syndrome. -/
def flipMask (syn : W3) : W7 := if syn != 0 then 1#7 <<< (syn.toNat - 1) else 0

/-- R80 step 2: the working copy, corrected. -/
def correct (c : W7) : W7 := c ^^^ flipMask (SYNDROME c)

/-- R80: the function of hamming_7_4_decoder.  It uses a syndrome calculator of its own (R24). -/
def DECODE (c : W7) : W4 := extract (correct c)

/-- R26: the encoder's nets p1, p2, p4. -/
def parityNets (d : W4) : Bool × Bool × Bool := ((ENCODE d).getLsbD 0, (ENCODE d).getLsbD 1, (ENCODE d).getLsbD 3)

/-- R26: the syndrome calculator's nets s1, s2, s4. -/
def checkNets (c : W7) : Bool × Bool × Bool := (mismatch c 0, mismatch c 1, mismatch c 3)

/-- R26: the decoder's nets syn, flip and corrected. -/
def decoderNets (c : W7) : W3 × W7 × W7 := (SYNDROME c, flipMask (SYNDROME c), correct c)

end Sys2Proof.Machine
end

