-- ==== Sys2Proof/Syntax.lean ====
section
/-! DEFINITION. The five operations of the block (R46, spec/opcode_table.json), each with its operand. -/

namespace Sys2Proof

/-- One constructor for each row of the opcode table.  The three port operations take a port word, so no reserved or
illegal operand exists (R47).  The two host calls take whatever a caller hands over (R90, R95). -/
inductive Instr where
  /-- row ENCODE (R60): drive `data_in` of hamming_7_4_encoder. -/
  | encodePort (d : W4)
  /-- row SYNDROME (R70): drive `code_in` of syndrome_calculator. -/
  | syndromePort (c : W7)
  /-- row DECODE (R80): drive `code_in` of hamming_7_4_decoder. -/
  | decodePort (c : W7)
  /-- row encode (R91): the host entry point over ENCODE. -/
  | encodeCall (a : HostValue)
  /-- row decode (R92): the host entry point over DECODE. -/
  | decodeCall (a : HostValue)
  deriving DecidableEq, Repr

end Sys2Proof
end

