-- ==== Sys2Proof/WellFormed.lean ====
section
/-! DEFINITION. Which instructions lie in the domain the spec gives a meaning to. -/

namespace Sys2Proof

/-- A host argument is in the adapter's domain iff it is a sequence of characters (R95).  Its length and its alphabet are
not checked here: an illegal sequence is a legal call that returns InvalidInput (R48, R90). -/
def HostValue.isSequence : HostValue → Bool
  | .chars _ => true
  | .word _ => false
  | .invalidInput => false
  | .other _ => false

/-- Every port operation is well formed, because every port word is legal (R47); a host call is well formed iff its
argument is a sequence of characters (R95). -/
def Instr.wf : Instr → Bool
  | .encodePort _ => true
  | .syndromePort _ => true
  | .decodePort _ => true
  | .encodeCall a => a.isSequence
  | .decodeCall a => a.isSequence

end Sys2Proof
end

