-- ==== Sys2Proof/Decode.lean ====
section
/-! DEFINITION. The decoder and the encoder.

The block has no opcode field (R46): an operation is selected by which sub-block is driven or which entry point is called.
So an encoded operation is what R51 says it is, "the opcode_table.json row of its operation plus the bits of its input
word".  `decode` reads that and is total.  `decodeTableWord` reads the same from one number, through a layout of the model's
own (DESIGN CHOICE, log 6), since the table gives the rows no bits that tell them apart. -/

namespace Sys2Proof

/-- The five rows of spec/opcode_table.json under their own names (R46). -/
inductive Row where
  | ENCODE
  | SYNDROME
  | DECODE
  | encode
  | decode
  deriving DecidableEq, Repr

/-- What comes with the row: the wires of an input port, index 0 first (R40, R41, R43), or a host call's argument. -/
inductive CodeInput where
  | bits (bs : List Bool)
  | argument (a : HostValue)
  deriving DecidableEq, Repr

/-- An encoded operation (R51). -/
structure Code where
  row : Row
  input : CodeInput
  deriving DecidableEq, Repr

/-- Why the decoder refuses.  `wrongWidth`: a port is driven with another number of wires than it has ("a differing width
would be a different block, so refuse it", 92_eei_decisions.md D2, R49).  `argumentAtPort`: a port cannot carry a host
argument (R25, R47).  `wiresAtHostCall`: an entry point takes an argument, not wires (R50). -/
inductive DecodeError where
  | wrongWidth (row : Row) (got : Nat)
  | argumentAtPort (row : Row)
  | wiresAtHostCall (row : Row)
  deriving DecidableEq, Repr

/-- The unsigned value of a list of wires, element i being bit i (R8, R43). -/
def valueOfBits : List Bool → Nat
  | [] => 0
  | b :: bs => b.toNat + 2 * valueOfBits bs

/-- The low `k` bits of `n`, bit 0 first (R8). -/
def bitsOfValue : Nat → Nat → List Bool
  | 0, _ => []
  | k + 1, n => n.testBit 0 :: bitsOfValue k (n / 2)

/-- Read the wires of a port of width `k`. -/
def decodeWires (row : Row) (k : Nat) (bs : List Bool) (mk : BitVec k → Instr) : Except DecodeError Instr :=
  if bs.length = k then .ok (mk (BitVec.ofNat k (valueOfBits bs))) else .error (.wrongWidth row bs.length)

/-- The decoder: total, and it refuses by name. -/
def decode (code : Code) : Except DecodeError Instr :=
  match code.row, code.input with
  | .ENCODE, .bits bs => decodeWires .ENCODE 4 bs .encodePort
  | .SYNDROME, .bits bs => decodeWires .SYNDROME 7 bs .syndromePort
  | .DECODE, .bits bs => decodeWires .DECODE 7 bs .decodePort
  | .encode, .argument a => .ok (.encodeCall a)
  | .decode, .argument a => .ok (.decodeCall a)
  | .ENCODE, .argument _ => .error (.argumentAtPort .ENCODE)
  | .SYNDROME, .argument _ => .error (.argumentAtPort .SYNDROME)
  | .DECODE, .argument _ => .error (.argumentAtPort .DECODE)
  | .encode, .bits _ => .error (.wiresAtHostCall .encode)
  | .decode, .bits _ => .error (.wiresAtHostCall .decode)

/-- The encoder: the row of the operation and its input (R51). -/
def encode : Instr → Code
  | .encodePort d => ⟨.ENCODE, .bits (bitsOfValue 4 d.toNat)⟩
  | .syndromePort c => ⟨.SYNDROME, .bits (bitsOfValue 7 c.toNat)⟩
  | .decodePort c => ⟨.DECODE, .bits (bitsOfValue 7 c.toNat)⟩
  | .encodeCall a => ⟨.encode, .argument a⟩
  | .decodeCall a => ⟨.decode, .argument a⟩

/-- The row an operation belongs to (R46). -/
def Instr.row : Instr → Row
  | .encodePort _ => .ENCODE
  | .syndromePort _ => .SYNDROME
  | .decodePort _ => .DECODE
  | .encodeCall _ => .encode
  | .decodeCall _ => .decode

/-- The number of wires of a row's input port (spec/opcode_table.json "width"); a host call has none. -/
def Row.width : Row → Option Nat
  | .ENCODE => some 4
  | .SYNDROME => some 7
  | .DECODE => some 7
  | .encode => none
  | .decode => none

/-- `n` characters, one a byte, the first in the lowest byte (log 6). -/
def charsOfBytes : Nat → Nat → List Char
  | 0, _ => []
  | n + 1, v => Char.ofNat (v % 256) :: charsOfBytes n (v / 256)

/-- The wires of a port of width `k` in the low byte of a table word.  A byte too great for the port keeps its eight wires,
which the decoder then refuses. -/
def wiresOfByte (k v : Nat) : List Bool :=
  if v < 2 ^ k then bitsOfValue k v else bitsOfValue 8 v

/-- DESIGN CHOICE (log 6): one number as an encoded operation.  Bits 7:0 are the input word, numbered as the opcode table
numbers them.  Bits 15:8 say which row is selected, in the table's own order from 1; the spec gives the rows no bits of
their own (R46), so with no selection (0) the word goes to the first row of the table whose port it fits.  For the two host
rows the argument's characters follow from bit 16, one a byte, to the end of the `nbits` bits.  Any other selection is handed
on at sixteen wires, which the decoder refuses. -/
def Code.ofTableWord (nbits w : Nat) : Code :=
  match w / 256 % 256 with
  | 0 => if w % 256 < 16 then ⟨.ENCODE, .bits (bitsOfValue 4 w)⟩ else ⟨.SYNDROME, .bits (wiresOfByte 7 (w % 256))⟩
  | 1 => ⟨.ENCODE, .bits (wiresOfByte 4 (w % 256))⟩
  | 2 => ⟨.SYNDROME, .bits (wiresOfByte 7 (w % 256))⟩
  | 3 => ⟨.DECODE, .bits (wiresOfByte 7 (w % 256))⟩
  | 4 => ⟨.encode, .argument (.chars (charsOfBytes (nbits / 8 - 2) (w / 65536)))⟩
  | 5 => ⟨.decode, .argument (.chars (charsOfBytes (nbits / 8 - 2) (w / 65536)))⟩
  | _ => ⟨.ENCODE, .bits (bitsOfValue 16 w)⟩

/-- The instruction the decoder reads from a table word, none where it refuses. -/
def decodeTableWord (nbits w : Nat) : Option Instr :=
  (decode (Code.ofTableWord nbits w)).toOption

end Sys2Proof
end

