-- ==== Sys2Proof/Machine/Operands.lean ====
section
/-! DEFINITION. Strings of the host boundary and port words (R43, R90). -/

namespace Sys2Proof.Machine

/-- The binary characters: exactly U+0030 and U+0031 (R90). -/
def isBinary (c : Char) : Bool := c == '0' || c == '1'

/-- R90: the right length and every element '0' or '1'.  The order of the two checks is unobservable (R104). -/
def valid (s : List Char) (n : Nat) : Bool := s.length == n && s.all isBinary

/-- R43: bit('0') = 0 and bit('1') = 1. -/
def bitOf (c : Char) : Nat := if c = '1' then 1 else 0

/-- R43: the sum of bit(s[i]) << i, taken from element 0 on. -/
def wordOf : List Char → Nat
  | [] => 0
  | c :: cs => bitOf c + 2 * wordOf cs

/-- R43: the character of one bit. -/
def charOf (b : Bool) : Char := if b then '1' else '0'

/-- R43: the sequence of a word of width `n`, element 0 first. -/
def seqOf {n : Nat} (w : BitVec n) : List Char := (List.range n).map fun i => charOf (w.getLsbD i)

/-- The word of width `k` that the spec states for a host value: a word that fits (R8), or a binary sequence of that length,
whose element i is bit i (R9, R43).  DESIGN CHOICE (log 9, log 18): a script step that needs a port word takes either. -/
def statedWord (k : Nat) : HostValue → Option Nat
  | .word n => if n < 2 ^ k then some n else none
  | .chars cs => if valid cs k then some (wordOf cs) else none
  | .invalidInput => none
  | .other _ => none

/-- The word of width `k` that a script step takes from a host value: the stated one, else the given free value (log 18). -/
def portWord {k : Nat} (v : HostValue) (free : BitVec k) : BitVec k :=
  match statedWord k v with
  | some n => BitVec.ofNat k n
  | none => free

end Sys2Proof.Machine
end

