-- ==== Sys2Proof/Config.lean ====
section
/-! DEFINITION. What an implementation fixes (the propagation delays, R6) and the free values: of R123,
and of a script operand whose port word the spec does not state (log 18).

Every constant here is opaque: no proof can see what it is, so a claim about it holds for every value. -/

namespace Sys2Proof.Config

/-- R6: the encoder's propagation delay, OPEN, any positive duration.  DESIGN CHOICE (log 5): counted in whole time units of
an unstated size. -/
opaque T_PD_ENC : ℕ+

/-- R6: the syndrome calculator's propagation delay, OPEN, any positive duration. -/
opaque T_PD_SYN : ℕ+

/-- R6: the decoder's propagation delay, OPEN, any positive duration. -/
opaque T_PD_DEC : ℕ+

/-- R123: what `code_out` shows when it is sampled too early, a free draw.  The arguments are the number of the draw, the word that was
driven before, the word driven now, and the time since it changed, so that nothing ties two draws together. -/
opaque unsettledCode : Nat → Nat → Nat → Nat → W7

/-- R123: what `syndrome_out` shows when it is sampled too early, a free draw of the same arguments. -/
opaque unsettledSyndrome : Nat → Nat → Nat → Nat → W3

/-- R123: what `data_out` shows when it is sampled too early, a free draw of the same arguments. -/
opaque unsettledData : Nat → Nat → Nat → Nat → W4

/-- The word a script step drives on `data_in` where the spec states none for its operand (log 18), a free value.  The arguments are
the number of the draw and the operand's value. -/
opaque freeDataIn : Nat → HostValue → W4

/-- The same on `code_in` of syndrome_calculator (log 18). -/
opaque freeSynCodeIn : Nat → HostValue → W7

/-- The same on `code_in` of hamming_7_4_decoder (log 18). -/
opaque freeDecCodeIn : Nat → HostValue → W7

/-- The W7 word of a channel-error step's source where the spec states none (log 18), a free value. -/
opaque freeChannelSource : Nat → HostValue → W7

/-- The W7 word of a channel-error step's mask where the spec states none (log 18), a free value. -/
opaque freeChannelMask : Nat → HostValue → W7

end Sys2Proof.Config
end

