-- ==== Sys2Proof/Machine/State.lean ====
section
/-! DEFINITION. The machine's state as plain data.

The block itself has no architectural state of any kind (R20).  "What a model has to represent is its ports and the values
on them" (10_state.md).  So State holds the word that the host drives on each input port (R22, R23, R24, R25), and the
host's own side of the machine: what the last operation returned (R93, R94), the host variables and the script (R51), and a counter of free
draws (R123).  An output port is NOT held: it is a function of its own block's input (R21, Machine/Ops.lean). -/

namespace Sys2Proof.Machine

/-- A host variable of a script (R51).  DESIGN CHOICE (log 7): variables are numbered; a name is a label only. -/
abbrev Var := Nat

/-- A sub-block with the word driven on its one input port (R22, R23, R24). -/
inductive SubBlock where
  | encoder (dataIn : W4)
  | syndromeCalculator (codeIn : W7)
  | decoder (codeIn : W7)
  deriving DecidableEq, Repr

/-- Where a host finds a sub-block: one of the three of R1, or the k-th of the further ones that R111 allows.  The number k
is the host's own way to point at one; the sub-blocks "have no identifiers" (R111). -/
inductive Place where
  | encoder
  | syndromeCalculator
  | decoder
  | further (k : Nat)
  deriving DecidableEq, Repr

/-- A literal of a script: a word `0x..` or a string (R51). -/
inductive Literal where
  | word (n : Nat)
  | string (cs : List Char)
  deriving DecidableEq, Repr

/-- What an operation step of a script is applied to.  R51's grammar writes `<op>(<var>)` only, while 95_test_vectors.md L3-P5
writes steps such as `a := encode("1011")`.  DESIGN CHOICE (log 16): the model takes both, a variable and a literal. -/
inductive Operand where
  | var (x : Var)
  | lit (l : Literal)
  deriving DecidableEq, Repr

/-- One thing the host does.  The three `bind` forms are the script steps of R51; the others are what R108, R111 and R123
let a host do outside a script. -/
inductive HostAction where
  /-- Perform one encoded operation: drive its sub-block, or make its call, and take the result (R46, R51). -/
  | issue (code : Code)
  /-- `x := <lit>` (R51). -/
  | bindLit (x : Var) (l : Literal)
  /-- `x := <op>(src)` (R51), or the operation on a literal (L3-P5, DESIGN CHOICE, log 16). -/
  | bindOp (x : Var) (row : Row) (src : Operand)
  /-- `x := src ^ <lit>`, a channel error (R51).  The rule does not say what a string as `<lit>` stands for.  DESIGN CHOICE
  (log 17): a valid codeword string stands for its W7 word (R9, R43). -/
  | bindXor (x : Var) (src : Var) (mask : Literal)
  /-- Drive any number of input ports at the same time (R34, R108, R111). -/
  | drive (inputs : List (Place × Nat))
  /-- Read the output port of a sub-block into a host variable (R108). -/
  | read (x : Var) (p : Place)
  /-- Set up one more sub-block, with a word already driven on it (R111). -/
  | attach (b : SubBlock)
  /-- Change the input of a sub-block to `w` and sample its output `t` time units later (R123). -/
  | sample (x : Var) (p : Place) (w : Nat) (t : Nat)
  deriving DecidableEq, Repr

/-- The machine as plain data; every field is the value on an input wire or the host's own.  INVENTORY.md, State, lists each with its rule. -/
structure State where
  /-- `data_in[3:0]` of hamming_7_4_encoder (R22). -/
  dataIn : W4
  /-- `code_in[6:0]` of syndrome_calculator (R23). -/
  synCodeIn : W7
  /-- `code_in[6:0]` of hamming_7_4_decoder (R24). -/
  decCodeIn : W7
  /-- The further sub-blocks, each with its input (R111). -/
  further : List SubBlock
  /-- What the last operation gave the host: a port word, a string, or InvalidInput (R94, R105); none before the first
  (DESIGN CHOICE, log 12: it stays until the next operation). -/
  result : Option HostValue
  /-- The host variables that are bound, variables strictly rising (R51). -/
  vars : List (Var × HostValue)
  /-- What the host has still to do, the next action first (R51). -/
  script : List HostAction
  /-- The model's own field: how often free values have been drawn (R123, log 18). -/
  draws : Nat
  deriving DecidableEq, Repr

/-- The block has no fault: "No row is `fault` or `stuck`: no input to any sub-block or host call makes the block trap,
hang or have no result" (93_implementation_defined.md).  So this type has no constructor, and InvalidInput is a result
that a call returns (R94, R105), never a fault (DEDUCED, log 13). -/
inductive Fault where
  deriving DecidableEq, Repr

/-- Why the model gives no meaning.  Each is safe: the run stops and nothing is claimed of it.  Those a host action raises are
DESIGN CHOICE (log 11): the spec says nothing of such an action. -/
inductive Refusal where
  /-- Raised by exec's arm of an instruction without a meaning; no arm is left so.  Safe. -/
  | notModelled (mnemonic : String)
  /-- Raised by the two host calls on an argument that is no sequence of characters, which R95 says a model refuses.  Safe. -/
  | argumentNotASequence
  /-- Raised by the fetch of an encoded operation that the decoder refuses (D2, R49).  Safe. -/
  | undecodable (e : DecodeError)
  /-- Raised by a script step that reads a variable no step has bound; R51 gives such a step no value.  Safe. -/
  | unboundVariable (x : Var)
  /-- Raised by the drive and sample actions where a word has more bits than the port it is to be driven on (R25, log 11).  Safe. -/
  | wordDoesNotFit (n : Nat)
  /-- Raised where the host points at a further sub-block that is not there.  Safe. -/
  | noSuchSubBlock (k : Nat)
  /-- Raised where one action drives the same input port twice at the same time; a wire carries exactly one value (R25).  Safe. -/
  | drivenTwice
  deriving DecidableEq, Repr

/-- Power-up.  There is no reset input and no reset value (R27, R120).  DESIGN CHOICE (log 1, unsafe): the host drives 0
on every input wire until it drives something else.  No variable is bound (R51: "the empty binding"), nothing has been
returned, nothing is pending, and there is no further sub-block (log 1, log 2). -/
def State.reset : State where
  dataIn := 0
  synCodeIn := 0
  decCodeIn := 0
  further := []
  result := none
  vars := []
  script := []
  draws := 0

end Sys2Proof.Machine
end

