-- ==== Sys2Proof/Machine/Ops.lean ====
section
/-! DEFINITION. The named operations over State: driving an input port, reading an output port, what an operation returns, raising
InvalidInput, and the host variables. -/

namespace Sys2Proof.Machine

/-! ### Output ports (R21): functions of the current input of the same block, never stored -/

/-- `code_out[6:0]` (R22). -/
def State.codeOut (s : State) : W7 := ENCODE s.dataIn

/-- `syndrome_out[2:0]` (R23). -/
def State.syndromeOut (s : State) : W3 := SYNDROME s.synCodeIn

/-- `data_out[3:0]` (R24). -/
def State.dataOut (s : State) : W4 := DECODE s.decCodeIn

/-! ### Driving the input ports (R108) -/

/-- Drive `data_in`. -/
def State.driveEncoder (s : State) (d : W4) : State := { s with dataIn := d }

/-- Drive `code_in` of syndrome_calculator. -/
def State.driveSyndrome (s : State) (c : W7) : State := { s with synCodeIn := c }

/-- Drive `code_in` of hamming_7_4_decoder. -/
def State.driveDecoder (s : State) (c : W7) : State := { s with decCodeIn := c }

/-! ### Results -/

/-- An operation hands its result to the host. -/
def State.returning (s : State) (v : HostValue) : State := { s with result := some v }

/-- R105: raising InvalidInput.  It saves nothing, changes nothing else, switches no mode and goes to no handler; the call
returns InvalidInput to its caller in place of a result.  There is no return from it (R106). -/
def State.raiseInvalidInput (s : State) : State := s.returning .invalidInput

/-- What the host finds in a result (R51, R94). -/
def hostValueOf : CallResult → HostValue
  | .ok cs => .chars cs
  | .invalidInput => .invalidInput

/-! ### The host variables (R51) -/

/-- The value bound to a variable. -/
def lookup (x : Var) : List (Var × HostValue) → Option HostValue
  | [] => none
  | (y, v) :: rest => if x = y then some v else lookup x rest

/-- Bind a variable and keep the variables strictly rising.  A second binding of one variable replaces the first (log 8). -/
def insertVar (x : Var) (v : HostValue) : List (Var × HostValue) → List (Var × HostValue)
  | [] => [(x, v)]
  | (y, w) :: rest =>
    if x < y then (x, v) :: (y, w) :: rest
    else if x = y then (x, v) :: rest
    else (y, w) :: insertVar x v rest

/-- The variables are strictly rising. -/
abbrev varsRising (vs : List (Var × HostValue)) : Prop := (vs.map Prod.fst).Pairwise (· < ·)

/-- Bind a host variable. -/
def State.bindVar (s : State) (x : Var) (v : HostValue) : State := { s with vars := insertVar x v s.vars }

/-- Bind a host variable to what the last operation returned. -/
def State.bindResult (s : State) (x : Var) : State :=
  match s.result with
  | some v => s.bindVar x v
  | none => s

/-- Count a draw of free values, where there is one. -/
def State.countDraw (s : State) (drawn : Bool) : State := { s with draws := s.draws + drawn.toNat }

/-! ### Sub-blocks by place (R111) -/

/-- The output of a sub-block (R21), as an unsigned word (R8). -/
def SubBlock.output : SubBlock → Nat
  | .encoder d => (ENCODE d).toNat
  | .syndromeCalculator c => (SYNDROME c).toNat
  | .decoder c => (DECODE c).toNat

/-- The width of a sub-block's input port (R22, R23, R24). -/
def SubBlock.width : SubBlock → Nat
  | .encoder _ => 4
  | .syndromeCalculator _ => 7
  | .decoder _ => 7

/-- The same sub-block with another word driven on it, where the word fits the port. -/
def SubBlock.withInput (b : SubBlock) (w : Nat) : Option SubBlock :=
  match b with
  | .encoder _ => if w < 16 then some (.encoder (BitVec.ofNat 4 w)) else none
  | .syndromeCalculator _ => if w < 128 then some (.syndromeCalculator (BitVec.ofNat 7 w)) else none
  | .decoder _ => if w < 128 then some (.decoder (BitVec.ofNat 7 w)) else none

/-- The propagation delay of a sub-block (R6). -/
def SubBlock.delay : SubBlock → Nat
  | .encoder _ => Config.T_PD_ENC
  | .syndromeCalculator _ => Config.T_PD_SYN
  | .decoder _ => Config.T_PD_DEC

/-- The word on a sub-block's input port (R25). -/
def SubBlock.input : SubBlock → Nat
  | .encoder d => d.toNat
  | .syndromeCalculator c => c.toNat
  | .decoder c => c.toNat

/-- The free value a sub-block shows when it is sampled `t` time units after its input changed from `old`, too early (R123),
for the `n`-th draw. -/
def SubBlock.unsettled (b : SubBlock) (n old t : Nat) : Nat :=
  match b with
  | .encoder d => (Config.unsettledCode n old d.toNat t).toNat
  | .syndromeCalculator c => (Config.unsettledSyndrome n old c.toNat t).toNat
  | .decoder c => (Config.unsettledData n old c.toNat t).toNat

/-- The sub-block at a place, with its current input.  Only a further one can be missing. -/
def State.blockAt (s : State) : Place → Except Refusal SubBlock
  | .encoder => .ok (.encoder s.dataIn)
  | .syndromeCalculator => .ok (.syndromeCalculator s.synCodeIn)
  | .decoder => .ok (.decoder s.decCodeIn)
  | .further k =>
    match s.further[k]? with
    | some b => .ok b
    | none => .error (.noSuchSubBlock k)

/-- The word on the output port at a place (R21). -/
def State.outputAt (s : State) (p : Place) : Except Refusal Nat :=
  match s.blockAt p with
  | .ok b => .ok b.output
  | .error r => .error r

/-- Drive the word `w` on the input port at a place, where it fits that port; a word too wide is
refused (DESIGN CHOICE, log 11). -/
def State.driveAt (s : State) (p : Place) (w : Nat) : Except Refusal State :=
  match p with
  | .encoder => if w < 16 then .ok (s.driveEncoder (BitVec.ofNat 4 w)) else .error (.wordDoesNotFit w)
  | .syndromeCalculator => if w < 128 then .ok (s.driveSyndrome (BitVec.ofNat 7 w)) else .error (.wordDoesNotFit w)
  | .decoder => if w < 128 then .ok (s.driveDecoder (BitVec.ofNat 7 w)) else .error (.wordDoesNotFit w)
  | .further k =>
    match s.further[k]? with
    | none => .error (.noSuchSubBlock k)
    | some b =>
      match b.withInput w with
      | some b' => .ok { s with further := s.further.set k b' }
      | none => .error (.wordDoesNotFit w)

/-- Drive a list of input ports.  Where no place stands twice the order does not matter (R34). -/
def State.driveAll (s : State) : List (Place × Nat) → Except Refusal State
  | [] => .ok s
  | (p, w) :: rest =>
    match s.driveAt p w with
    | .error r => .error r
    | .ok t => t.driveAll rest

/-- Sample the output of a sub-block `t` time units after its input changed from `old`: the rule's value once the block has
settled, a free value before (R123). -/
def State.sampleAt (s : State) (x : Var) (old : Nat) (b : SubBlock) (t : Nat) : State :=
  if b.delay ≤ t then s.bindVar x (.word b.output)
  else { s.bindVar x (.word (b.unsettled s.draws old t)) with draws := s.draws + 1 }

end Sys2Proof.Machine
end

