-- ==== Sys2Proof/Machine/HostCalls.lean ====
section
/-! DEFINITION. The meanings of the two host calls encode and decode (43_host_interface.md).

DEDUCED (log 3): the adapter drives the sub-block it stands over ("host boundary over hamming_7_4_encoder",
spec/opcode_table.json), so a call with a valid argument leaves that argument's word on the port. -/

namespace Sys2Proof.Machine

/-- The result of `encode(s)` (R91), as a function of the argument alone (R93). -/
def encodeResult (cs : List Char) : CallResult :=
  if valid cs 4 then .ok (seqOf (ENCODE (BitVec.ofNat 4 (wordOf cs)))) else .invalidInput

/-- The result of `decode(s)` (R92), as a function of the argument alone (R93). -/
def decodeResult (cs : List Char) : CallResult :=
  if valid cs 7 then .ok (seqOf (DECODE (BitVec.ofNat 7 (wordOf cs)))) else .invalidInput

/-- encode (R91).  An argument that is no sequence of characters is refused (R95). -/
def execEncodeCall (a : HostValue) (s : State) : Host.Outcome State Fault Refusal :=
  match a with
  | .chars cs =>
    match encodeResult cs with
    | .ok r => .next ((s.driveEncoder (BitVec.ofNat 4 (wordOf cs))).returning (hostValueOf (.ok r)))
    | .invalidInput => .next s.raiseInvalidInput
  | .word _ => .refused .argumentNotASequence
  | .invalidInput => .refused .argumentNotASequence
  | .other _ => .refused .argumentNotASequence

/-- decode (R92).  An argument that is no sequence of characters is refused (R95). -/
def execDecodeCall (a : HostValue) (s : State) : Host.Outcome State Fault Refusal :=
  match a with
  | .chars cs =>
    match decodeResult cs with
    | .ok r => .next ((s.driveDecoder (BitVec.ofNat 7 (wordOf cs))).returning (hostValueOf (.ok r)))
    | .invalidInput => .next s.raiseInvalidInput
  | .word _ => .refused .argumentNotASequence
  | .invalidInput => .refused .argumentNotASequence
  | .other _ => .refused .argumentNotASequence

end Sys2Proof.Machine
end

