-- ==== Sys2Proof/Machine/PortOps.lean ====
section
/-! DEFINITION. The meanings of the three port operations ENCODE, SYNDROME and DECODE.

Each is one indivisible, zero-delay evaluation (R32, R122): the host drives the whole input word and takes the whole output
word.  None raises an error for any input word (R102). -/

namespace Sys2Proof.Machine

/-- ENCODE (R60). -/
def execEncodePort (d : W4) (s : State) : Host.Outcome State Fault Refusal :=
  .next ((s.driveEncoder d).returning (.word (s.driveEncoder d).codeOut.toNat))

/-- SYNDROME (R70). -/
def execSyndromePort (c : W7) (s : State) : Host.Outcome State Fault Refusal :=
  .next ((s.driveSyndrome c).returning (.word (s.driveSyndrome c).syndromeOut.toNat))

/-- DECODE (R80).  The standalone syndrome_calculator keeps its own input: the decoder contains one of its own (R24).  A word
with two or more flipped bits gives the rule's value and no sign of it (R81). -/
def execDecodePort (c : W7) (s : State) : Host.Outcome State Fault Refusal :=
  .next ((s.driveDecoder c).returning (.word (s.driveDecoder c).dataOut.toNat))

end Sys2Proof.Machine
end

