-- ==== Sys2Proof/Machine/Dispatch.lean ====
section
/-! DEFINITION. One arm per instruction. -/

namespace Sys2Proof.Machine

def exec (i : Instr) (s : State) : Host.Outcome State Fault Refusal :=
  match i with
  | .encodePort d => Sys2Proof.Machine.execEncodePort d s
  | .syndromePort c => Sys2Proof.Machine.execSyndromePort c s
  | .decodePort c => Sys2Proof.Machine.execDecodePort c s
  | .encodeCall a => Sys2Proof.Machine.execEncodeCall a s
  | .decodeCall a => Sys2Proof.Machine.execDecodeCall a s

end Sys2Proof.Machine
end

