-- ==== Sys2Proof/Machine/Script.lean ====
section
/-! DEFINITION. What each host action does: the script steps of R51, and what R108, R111 and R123 let a host do beside them. -/

namespace Sys2Proof.Machine

/-- Decode an encoded operation and perform it. -/
def runCode (code : Code) (s : State) : Host.Outcome State Fault Refusal :=
  match decode code with
  | .error e => .refused (.undecodable e)
  | .ok i => exec i s

/-- The value a literal stands for. -/
def Literal.value : Literal → HostValue
  | .word n => .word n
  | .string cs => .chars cs

/-- The value of an operand: what the variable is bound to, or the literal itself (log 16). -/
def operandValue (src : Operand) (vars : List (Var × HostValue)) : Except Refusal HostValue :=
  match src with
  | .lit l => .ok l.value
  | .var x =>
    match lookup x vars with
    | some v => .ok v
    | none => .error (.unboundVariable x)

/-- The encoding of the script step `<op>(src)`: the row of its operation and its input, taken from the value of `src`
(R51).  A port is driven with the word stated for the value, else with the free value of the `n`-th draw (DESIGN CHOICE,
log 18).  A host call takes any value, and refuses what is no sequence of characters itself (R95). -/
def codeOfStep (row : Row) (v : HostValue) (n : Nat) : Code :=
  match row with
  | .ENCODE => ⟨.ENCODE, .bits (bitsOfValue 4 (portWord v (Config.freeDataIn n v)).toNat)⟩
  | .SYNDROME => ⟨.SYNDROME, .bits (bitsOfValue 7 (portWord v (Config.freeSynCodeIn n v)).toNat)⟩
  | .DECODE => ⟨.DECODE, .bits (bitsOfValue 7 (portWord v (Config.freeDecCodeIn n v)).toNat)⟩
  | .encode => ⟨.encode, .argument v⟩
  | .decode => ⟨.decode, .argument v⟩

/-- Whether the step `<op>(src)` draws a free value: a port operation on a value that the spec states no word of its width
for (log 18). -/
def stepDraws (row : Row) (v : HostValue) : Bool :=
  match row.width with
  | some k => (statedWord k v).isNone
  | none => false

/-- The word of a channel-error step (R51): the XOR of the source's W7 word and the mask's, each the stated one or the free
value of the `n`-th draw (log 9, log 17, log 18). -/
def channelWord (v mask : HostValue) (n : Nat) : W7 :=
  portWord v (Config.freeChannelSource n v) ^^^ portWord mask (Config.freeChannelMask n mask)

/-- After an outcome: bind the variable to the result.  A fault or a refusal stays. -/
def bindAfter (x : Var) : Host.Outcome State Fault Refusal → Host.Outcome State Fault Refusal
  | .next t => .next (t.bindResult x)
  | .fault f => .fault f
  | .refused r => .refused r

/-- `x := <op>(src)` (R51). -/
def runBindOp (x : Var) (row : Row) (src : Operand) (s : State) : Host.Outcome State Fault Refusal :=
  match operandValue src s.vars with
  | .error r => .refused r
  | .ok v => bindAfter x (runCode (codeOfStep row v s.draws) (s.countDraw (stepDraws row v)))

/-- `x := src ^ <lit>` (R51): the XOR of a W7 word, done by the host or the channel; no sub-block takes part. -/
def runBindXor (x : Var) (src : Var) (mask : Literal) (s : State) : Host.Outcome State Fault Refusal :=
  match operandValue (.var src) s.vars with
  | .error r => .refused r
  | .ok v => .next ((s.countDraw ((statedWord 7 v).isNone || (statedWord 7 mask.value).isNone)).bindVar x
      (.word (channelWord v mask.value s.draws).toNat))

/-- Drive several input ports at the same time (R34).  One wire carries exactly one value (R25). -/
def runDrive (inputs : List (Place × Nat)) (s : State) : Host.Outcome State Fault Refusal :=
  if (inputs.map Prod.fst).Nodup then
    match s.driveAll inputs with
    | .ok t => .next t
    | .error r => .refused r
  else .refused .drivenTwice

/-- Read an output port (R108).  The input has held long enough: R123's duty of the host (log 10). -/
def runRead (x : Var) (p : Place) (s : State) : Host.Outcome State Fault Refusal :=
  match s.outputAt p with
  | .error r => .refused r
  | .ok w => .next (s.bindVar x (.word w))

/-- Change the input at a place to `w` and sample its output `t` time units later (R123). -/
def runSample (x : Var) (p : Place) (w : Nat) (t : Nat) (s : State) : Host.Outcome State Fault Refusal :=
  match s.blockAt p with
  | .error r => .refused r
  | .ok old =>
    match s.driveAt p w with
    | .error r => .refused r
    | .ok u =>
      match u.blockAt p with
      | .error r => .refused r
      | .ok b => .next (u.sampleAt x old.input b t)

/-- One host action. -/
def runAction (a : HostAction) (s : State) : Host.Outcome State Fault Refusal :=
  match a with
  | .issue code => runCode code s
  | .bindLit x l => .next (s.bindVar x l.value)
  | .bindOp x row src => runBindOp x row src s
  | .bindXor x src mask => runBindXor x src mask s
  | .drive inputs => runDrive inputs s
  | .read x p => runRead x p s
  | .attach b => .next { s with further := s.further ++ [b] }
  | .sample x p w t => runSample x p w t s

/-- A literal of a script.  R51 sets no limit to a word literal `0x..`.  DESIGN CHOICE (log 19): only one below 128, which fits the
widest port, counts as well formed, though a step binds any (`runAction`); any string is well formed. -/
def Literal.wf : Literal → Bool
  | .word n => n < 128
  | .string _ => true

/-- An operand of a script: any variable, or a literal that is well formed (log 19). -/
def Operand.wf : Operand → Bool
  | .var _ => true
  | .lit l => l.wf

/-- A host action as the spec allows it: a literal that is well formed (log 19), a channel error with a stated W7 word (log 17), and no input port driven
twice at the same time. -/
def HostAction.wf : HostAction → Bool
  | .issue code => (decode code).toOption.any Instr.wf
  | .bindLit _ l => l.wf
  | .bindOp _ _ src => src.wf
  | .bindXor _ _ mask => (statedWord 7 mask.value).isSome
  | .drive inputs => (inputs.map Prod.fst).Nodup
  | .read _ _ => true
  | .attach _ => true
  | .sample _ _ _ _ => true

end Sys2Proof.Machine
end

