-- ==== Sys2Proof/Machine/Step.lean ====
section
/-! DEFINITION. One step of the machine.

The block fetches no instructions (R36); what happens next is what the host does next (R46, R121).  A step takes the first
action of the script, and the steps of a script run in order (R51).  With nothing left to do nothing changes, since the outputs follow the
inputs at every moment (R21, log 4). -/

namespace Sys2Proof.Machine

def step (s : State) : Host.Outcome State Fault Refusal :=
  match s.script with
  | [] => .next s
  | a :: rest => runAction a { s with script := rest }

/-- The state in which the host's next action is the encoded operation of a table word (log 6).  A program is loaded from
outside: the host decides what it does (log 4). -/
def State.withFetchWord (s : State) (nbits w : Nat) : State :=
  { s with script := .issue (Code.ofTableWord nbits w) :: s.script }

end Sys2Proof.Machine
end

