-- ==== Sys2Proof/Machine/ClosedForms.lean ====
section
/-! DEFINITION. The closed forms the spec gives beside its pseudocode (R61, R70, R71, R80).  The machine runs the pseudocode
(Machine/Codec.lean); that both give the same values is a claim. -/

namespace Sys2Proof.Machine

/-- R61: ENCODE in closed form, { d[3], d[2], d[1], p4, d[0], p2, p1 }. -/
def closedCode (d : W4) : W7 :=
  let b := fun i => d.getLsbD i
  BitVec.ofBool (b 3) ++ BitVec.ofBool (b 2) ++ BitVec.ofBool (b 1) ++ BitVec.ofBool (b 1 ^^ b 2 ^^ b 3) ++
    BitVec.ofBool (b 0) ++ BitVec.ofBool (b 0 ^^ b 2 ^^ b 3) ++ BitVec.ofBool (b 0 ^^ b 1 ^^ b 3)

/-- R70: the parity check s1 in closed form. -/
def closedS1 (c : W7) : Bool := c.getLsbD 0 ^^ c.getLsbD 2 ^^ c.getLsbD 4 ^^ c.getLsbD 6

/-- R70: the parity check s2 in closed form. -/
def closedS2 (c : W7) : Bool := c.getLsbD 1 ^^ c.getLsbD 2 ^^ c.getLsbD 5 ^^ c.getLsbD 6

/-- R70: the parity check s4 in closed form. -/
def closedS4 (c : W7) : Bool := c.getLsbD 3 ^^ c.getLsbD 4 ^^ c.getLsbD 5 ^^ c.getLsbD 6

/-- R70, R71: the syndrome as the concatenation { s4, s2, s1 }. -/
def closedSyndrome (c : W7) : W3 := BitVec.ofBool (closedS4 c) ++ BitVec.ofBool (closedS2 c) ++ BitVec.ofBool (closedS1 c)

/-- R80: DECODE in closed form. -/
def closedData (c : W7) : W4 :=
  let syn := closedSyndrome c
  BitVec.ofBool (c.getLsbD 6 ^^ (syn == 7)) ++ BitVec.ofBool (c.getLsbD 5 ^^ (syn == 6)) ++
    BitVec.ofBool (c.getLsbD 4 ^^ (syn == 5)) ++ BitVec.ofBool (c.getLsbD 2 ^^ (syn == 3))

end Sys2Proof.Machine
end

