-- ==== Sys2Proof/Safety.lean ====
section
/-! DEFINITION. The terms claims use: the state an outcome gives, a value that fits the ports, the invariant of the state,
and what a conforming realisation of the block is (R12). -/

namespace Sys2Proof

open Machine

/-- The next state of an outcome, none where the machine stops. -/
def nextOf : Host.Outcome State Fault Refusal → Option State
  | .next s => some s
  | .fault _ => none
  | .refused _ => none

/-- The refusal of an outcome, if it is one. -/
def refusalOf : Host.Outcome State Fault Refusal → Option Refusal
  | .next _ => none
  | .fault _ => none
  | .refused r => some r

/-- What an outcome returned to the host. -/
def resultOf (o : Host.Outcome State Fault Refusal) : Option HostValue := (nextOf o).bind State.result

/-- A value a host variable holds in a script of well-formed literals (R51): a word that fits the widest port, a string, or
InvalidInput.  R51 sets no limit to a word literal; that 128 is the limit here is DESIGN CHOICE (log 19). -/
def HostValue.bindable : HostValue → Bool
  | .word n => n < 128
  | .chars _ => true
  | .invalidInput => true
  | .other _ => false

/-- The invariant every step keeps: the host variables are in their one canonical form, every value held is one a host
variable can hold, and every pending action is well formed. -/
abbrev Machine.State.Inv (s : State) : Prop :=
  varsRising s.vars ∧ (∀ xv ∈ s.vars, xv.2.bindable = true) ∧ s.result.all HostValue.bindable = true ∧
    ∀ a ∈ s.script, a.wf = true

/-- The sub-block an operation is performed on (R46). -/
def Row.place : Row → Place
  | .ENCODE => .encoder
  | .SYNDROME => .syndromeCalculator
  | .DECODE => .decoder
  | .encode => .encoder
  | .decode => .decoder

/-- R82: the weight of a word, its number of 1 bits. -/
def weight (c : W7) : Nat := ((List.range 7).filter fun i => c.getLsbD i).length

/-- The channel flips bit `i` of a codeword (R84). -/
def flipBit (c : W7) (i : Nat) : W7 := c ^^^ (1#7 <<< i)

/-- The channel flips element `i` of a codeword string (R43, R84). -/
def flipChar (cs : List Char) (i : Nat) : List Char := cs.modify i fun c => if c = '0' then '1' else '0'

/-- The reading of the decoder's step 1 that 90_conflicts.md C1 rejects: the parity recomputed over the whole covering set, the
received parity bit with it, and then compared with that bit. -/
def rejectedErrorPos (c : W7) : Nat :=
  parityIndices.foldl (fun acc p => if xorOver c (coveringSet p) != c.getLsbD p then acc + (p + 1) else acc) 0

/-- The decoder under the rejected reading (90_conflicts.md C1). -/
def rejectedDecode (c : W7) : W4 :=
  extract (c ^^^ if rejectedErrorPos c != 0 then 1#7 <<< (rejectedErrorPos c - 1) else 0)

/-- A realisation of the three sub-blocks: three total functions (R21).  Its structure is its own affair (R12). -/
structure Realisation where
  code : W4 → W7
  syndrome : W7 → W3
  data : W7 → W4

/-- R12: a realisation conforms if its outputs equal the rules' values for every input. -/
def Realisation.Conforms (r : Realisation) : Prop :=
  (∀ d, r.code d = ENCODE d) ∧ (∀ c, r.syndrome c = SYNDROME c) ∧ ∀ c, r.data c = DECODE c

/-- The realisation by the closed forms of R61, R71 and R80. -/
def closedForms : Realisation := ⟨closedCode, closedSyndrome, closedData⟩

end Sys2Proof
end

