-- ==== Sys2Proof/Certificates/Slice0/Obligations.lean ====
section
/-! DEFINITION. The statements for the provers.  Each is a rule of spec/ said of `exec`, `step` or the decoder. -/

open Sys2Proof Sys2Proof.Machine

/-! ### ENCODE (40_encoder.md) -/

/-- R60: ENCODE on every payload in every state.  It completes, it drives `data_in` and returns `code_out`, and it changes
nothing else.  `code_out` is what the three steps give: the data bits in place, each parity bit the XOR of its covering set
without itself, whatever the order of the parity indices.  Then the nets, the corner cases and the worked example. -/
def Obligations.EncodeFollowsItsThreeSteps : Prop :=
  ∀ (d : W4) (s : State), ∃ t, exec (.encodePort d) s = .next t ∧
    t = { s with dataIn := d, result := some (.word t.codeOut.toNat) } ∧
    (t.codeOut.getLsbD 2 = d.getLsbD 0 ∧ t.codeOut.getLsbD 4 = d.getLsbD 1 ∧
      t.codeOut.getLsbD 5 = d.getLsbD 2 ∧ t.codeOut.getLsbD 6 = d.getLsbD 3) ∧
    (∀ p ∈ [0, 1, 3], t.codeOut.getLsbD p =
      ((List.range 7).filter fun i => ((i + 1) &&& (p + 1)) != 0 && i != p).foldl
        (fun acc i => acc ^^ t.codeOut.getLsbD i) false) ∧
    (∀ ps, ps.Perm [0, 1, 3] → encodeInOrder ps d = t.codeOut) ∧
    parityNets d = (t.codeOut.getLsbD 0, t.codeOut.getLsbD 1, t.codeOut.getLsbD 3) ∧
    (d = 0x0 → t.codeOut = 0x00) ∧ (d = 0xF → t.codeOut = 0x7F) ∧ (d = 0xD → t.codeOut = 0x66)

/-- R61: ENCODE in closed form, as the XOR of the rows of the table, and its linearity. -/
def Obligations.EncodeClosedFormRowsAndLinearity : Prop :=
  ∀ (a : W4) (s : State),
    exec (.encodePort a) s = .next { s with dataIn := a, result := some (.word (closedCode a).toNat) } ∧
    closedCode a = (if a.getLsbD 0 then 0x07#7 else 0) ^^^ (if a.getLsbD 1 then 0x19#7 else 0) ^^^
      (if a.getLsbD 2 then 0x2A#7 else 0) ^^^ (if a.getLsbD 3 then 0x4B#7 else 0) ∧
    (ENCODE 0x1 = 0x07 ∧ ENCODE 0x2 = 0x19 ∧ ENCODE 0x4 = 0x2A ∧ ENCODE 0x8 = 0x4B) ∧
    (∀ b : W4, ENCODE (a ^^^ b) = ENCODE a ^^^ ENCODE b) ∧ ENCODE 0 = 0

/-- R62: every output of ENCODE has syndrome 0, and ENCODE is injective because extract undoes it. -/
def Obligations.EncodedWordsHaveSyndromeZeroAndDiffer : Prop :=
  ∀ (d : W4) (s : State), ∃ t u, exec (.encodePort d) s = .next t ∧ exec (.syndromePort t.codeOut) t = .next u ∧
    u.syndromeOut = 0 ∧ u.result = some (.word 0) ∧ extract t.codeOut = d ∧
    ∀ d' : W4, ENCODE d' = t.codeOut → d' = d

/-! ### SYNDROME (41_syndrome_calculator.md) -/

/-- R70: SYNDROME on every codeword in every state.  It completes, drives `code_in` and returns `syndrome_out`, and changes
nothing else.  The syndrome is the integer sum of p+1 over the parity indices whose parity, recomputed without the received
bit, differs from that bit; equivalently the XOR of the whole covering set is 1; the three nets and the concatenation; the range; the corner cases; the worked example. -/
def Obligations.SyndromeSumsItsMismatches : Prop :=
  ∀ (c : W7) (s : State), ∃ t, exec (.syndromePort c) s = .next t ∧
    t = { s with synCodeIn := c, result := some (.word t.syndromeOut.toNat) } ∧
    (let recomputedAt := fun p : Nat => ((List.range 7).filter fun i => ((i + 1) &&& (p + 1)) != 0 && i != p).foldl
        (fun acc i => acc ^^ c.getLsbD i) false
     t.syndromeOut.toNat = (if recomputedAt 0 ≠ c.getLsbD 0 then 1 else 0) +
        (if recomputedAt 1 ≠ c.getLsbD 1 then 2 else 0) + (if recomputedAt 3 ≠ c.getLsbD 3 then 4 else 0)) ∧
    (∀ p ∈ [0, 1, 3], mismatch c p = xorOver c (coveringSet p)) ∧
    checkNets c = (closedS1 c, closedS2 c, closedS4 c) ∧
    t.syndromeOut = closedSyndrome c ∧ t.syndromeOut.toNat ≤ 7 ∧ errorPos c ≤ 7 ∧
    (c = 0x00 → t.syndromeOut = 0) ∧ (c = 0x7F → t.syndromeOut = 0) ∧ (c = 0x01 → t.syndromeOut = 1) ∧
    (c = 0x40 → t.syndromeOut = 7) ∧ (c = 0x66 → t.syndromeOut = 0) ∧ (c = 0x4F → t.syndromeOut = 3)

/-- R71: the sum has no carries, so it equals the OR and the concatenation. -/
def Obligations.SyndromeSumEqualsOrEqualsConcatenation : Prop :=
  ∀ (c : W7) (s : State), ∃ t, exec (.syndromePort c) s = .next t ∧ t.result = some (.word (errorPos c)) ∧
    errorPos c = ((if closedS1 c then 1 else 0) ||| (if closedS2 c then 2 else 0) ||| (if closedS4 c then 4 else 0)) ∧
    errorPos c = (closedSyndrome c).toNat

/-- R72: the five properties of SYNDROME, said of what the operation returns in every state. -/
def Obligations.SyndromeProperties : Prop :=
  ∀ s : State,
    (∀ i < 7, resultOf (exec (.syndromePort (1#7 <<< i)) s) = some (.word (i + 1)) ∧
      ∀ k < 3, ((SYNDROME (1#7 <<< i)).getLsbD k = true ↔ i ∈ coveringSet (2 ^ k - 1)) ∧
        (i ∈ coveringSet (2 ^ k - 1) ↔ (i + 1).testBit k = true)) ∧
    (∀ a b : W7, resultOf (exec (.syndromePort (a ^^^ b)) s) = some (.word (SYNDROME a ^^^ SYNDROME b).toNat)) ∧
    (∀ c : W7, resultOf (exec (.syndromePort c) s) =
      some (.word (((List.range 7).filter fun i => c.getLsbD i).foldl (fun acc i => acc ^^^ (i + 1)) 0))) ∧
    (∀ c : W7, resultOf (exec (.syndromePort c) s) = some (.word 0) ↔ ∃ d, c = ENCODE d) ∧
    (∀ v < 8, ((List.range 128).filter fun n => (SYNDROME (BitVec.ofNat 7 n)).toNat == v).length = 16) ∧
    (∀ d, ∀ i < 7, resultOf (exec (.syndromePort (flipBit (ENCODE d) i)) s) = some (.word (i + 1))) ∧
    (∀ d, ∀ i < 7, ∀ j < 7, i ≠ j →
      resultOf (exec (.syndromePort (flipBit (flipBit (ENCODE d) i) j)) s) = some (.word ((i + 1) ^^^ (j + 1))) ∧
        (i + 1) ^^^ (j + 1) ≠ 0 ∧ (i + 1) ^^^ (j + 1) ≠ i + 1 ∧ (i + 1) ^^^ (j + 1) ≠ j + 1)

/-! ### DECODE (42_decoder.md) -/

/-- R80: DECODE on every codeword in every state.  It completes, drives the decoder's `code_in` and returns `data_out`, and
changes nothing else.  The three steps, the closed form, the corner cases and the worked example. -/
def Obligations.DecodeFlipsAndExtracts : Prop :=
  ∀ (c : W7) (s : State), ∃ t, exec (.decodePort c) s = .next t ∧
    t = { s with decCodeIn := c, result := some (.word t.dataOut.toNat) } ∧
    (let syn := SYNDROME c
     let corrected := c ^^^ (if syn ≠ 0 then 1#7 <<< (syn.toNat - 1) else 0)
     (∀ k < 4, t.dataOut.getLsbD k = corrected.getLsbD ([2, 4, 5, 6].getD k 0)) ∧
      t.dataOut = closedData c ∧
      (syn = 0 ∨ syn = 1 ∨ syn = 2 ∨ syn = 4 → t.dataOut = extract c) ∧
      (syn = 3 → t.dataOut = extract c ^^^ 1) ∧ (syn = 5 → t.dataOut = extract c ^^^ 2) ∧
      (syn = 6 → t.dataOut = extract c ^^^ 4) ∧ (syn = 7 → t.dataOut = extract c ^^^ 8) ∧
      syn.toNat - 1 ≤ 6) ∧
    (c = 0x4F → SYNDROME c = 3 ∧ correct c = 0x4B ∧ t.dataOut = 0x8)

/-- R81: for every word, with any number of flipped bits, DECODE gives the rule's value and no sign that it may be wrong;
the host call on a valid string never returns InvalidInput. -/
def Obligations.DecodeSignalsNothing : Prop :=
  (∀ (d : W4) (e : W7) (s : State), exec (.decodePort (ENCODE d ^^^ e)) s =
    .next { s with decCodeIn := ENCODE d ^^^ e, result := some (.word (closedData (ENCODE d ^^^ e)).toNat) }) ∧
  ∀ (c : W7) (s : State), ∃ t, exec (.decodeCall (.chars (seqOf c))) s = .next t ∧
    t.result = some (.chars (seqOf (closedData c)))

/-- R82: the 16 valid codewords, which are exactly the words SYNDROME returns 0 for; their weights; any two differ in at least
3 bit positions. -/
def Obligations.ValidCodewordsWeightsAndDistance : Prop :=
  let codewords : List W7 := [0x00, 0x07, 0x19, 0x1E, 0x2A, 0x2D, 0x33, 0x34, 0x4B, 0x4C, 0x52, 0x55, 0x61, 0x66, 0x78, 0x7F]
  (∀ (c : W7) (s : State), (resultOf (exec (.syndromePort c) s) = some (.word 0) ↔ c ∈ codewords)) ∧
  (∀ (c : W7), c ∈ codewords ↔ ∃ d, ENCODE d = c) ∧
  (codewords.map weight).count 0 = 1 ∧ (codewords.map weight).count 3 = 7 ∧ (codewords.map weight).count 4 = 7 ∧
  (codewords.map weight).count 7 = 1 ∧
  ∀ a b : W4, ENCODE a ≠ ENCODE b → 3 ≤ weight (ENCODE a ^^^ ENCODE b)

/-- R83: encoding a payload and decoding the codeword gives the payload back, from every state. -/
def Obligations.RoundTripGivesThePayloadBack : Prop :=
  ∀ (d : W4) (s : State), ∃ t u, exec (.encodePort d) s = .next t ∧ exec (.decodePort t.codeOut) t = .next u ∧
    u.dataOut = d ∧ u.result = some (.word d.toNat)

/-- R84: any one flipped bit is corrected, from every state. -/
def Obligations.EverySingleBitErrorIsCorrected : Prop :=
  ∀ (d : W4) (k : Nat) (s : State), k < 7 → ∃ t u, exec (.encodePort d) s = .next t ∧
    exec (.decodePort (flipBit t.codeOut k)) t = .next u ∧ u.dataOut = d ∧ u.result = some (.word d.toNat)

/-- R85: decoding gives the payload back iff at most one bit is flipped.  The corrected word is always a valid codeword; a
double error always flips one further bit; a triple error that forms a valid codeword flips none. -/
def Obligations.PayloadComesBackIffAtMostOneBitFlipped : Prop :=
  ∀ (d : W4) (e : W7) (s : State), ∃ t, exec (.decodePort (ENCODE d ^^^ e)) s = .next t ∧
    (t.result = some (.word d.toNat) ↔ weight e ≤ 1) ∧ (t.dataOut = d ↔ weight e ≤ 1) ∧
    SYNDROME (correct (ENCODE d ^^^ e)) = 0 ∧
    (weight e = 2 → SYNDROME (ENCODE d ^^^ e) ≠ 0) ∧
    (weight e = 3 → (∃ d', ENCODE d ^^^ e = ENCODE d') →
      SYNDROME (ENCODE d ^^^ e) = 0 ∧ correct (ENCODE d ^^^ e) = ENCODE d ^^^ e)

/-! ### Words, strings and fields (30_encoding.md) -/

/-- R43: element i of a sequence is bit i of its word, both ways; the sum; the examples. -/
def Obligations.ElementOfSequenceIsBitOfWord : Prop :=
  (∀ (cs : List Char) (i : Nat), (wordOf cs).testBit i = (cs[i]? == some '1')) ∧
  (∀ cs : List Char, wordOf cs = ((List.range cs.length).map fun i => bitOf (cs.getD i '0') <<< i).sum) ∧
  (∀ (n : Nat) (w : BitVec n), (seqOf w).length = n ∧
    ∀ i < n, (seqOf w)[i]? = some (if w.getLsbD i then '1' else '0')) ∧
  (∀ (n : Nat) (w : BitVec n), BitVec.ofNat n (wordOf (seqOf w)) = w ∧ wordOf (seqOf w) = w.toNat) ∧
  (∀ cs : List Char, cs.all isBinary = true → seqOf (BitVec.ofNat cs.length (wordOf cs)) = cs) ∧
  wordOf ['1', '0', '1', '1'] = 0xD ∧ wordOf ['0', '1', '1', '0', '0', '1', '1'] = 0x66 ∧
  wordOf ['1', '0', '0', '0'] = 0x1

/-- R44: the covering sets, their indices, positions and masks; each holds exactly one parity index, its own; which covering
sets each data position lies in. -/
def Obligations.CoveringSetsAsListed : Prop :=
  (∀ k < 3, ∀ i, i ∈ coveringSet (2 ^ k - 1) ↔ i < 7 ∧ ((i + 1) &&& 2 ^ k) ≠ 0) ∧
  coveringSet 0 = [0, 2, 4, 6] ∧ coveringSet 1 = [1, 2, 5, 6] ∧ coveringSet 3 = [3, 4, 5, 6] ∧
  ((coveringSet 0).map (2 ^ ·)).sum = 0x55 ∧ ((coveringSet 1).map (2 ^ ·)).sum = 0x66 ∧
  ((coveringSet 3).map (2 ^ ·)).sum = 0x78 ∧
  (∀ p ∈ parityIndices, (coveringSet p).filter (· ∈ parityIndices) = [p]) ∧
  (parityIndices.filter fun p => 2 ∈ coveringSet p) = [0, 1] ∧
  (parityIndices.filter fun p => 4 ∈ coveringSet p) = [0, 3] ∧
  (parityIndices.filter fun p => 5 ∈ coveringSet p) = [1, 3] ∧
  (parityIndices.filter fun p => 6 ∈ coveringSet p) = [0, 1, 3]

/-- R45: where the payload bits go, where they are read from, and that extraction is the inverse of placement. -/
def Obligations.ExtractionInvertsPlacement : Prop :=
  ∀ (d : W4) (c : W7),
    ((place d).getLsbD 2 = d.getLsbD 0 ∧ (place d).getLsbD 4 = d.getLsbD 1 ∧ (place d).getLsbD 5 = d.getLsbD 2 ∧
      (place d).getLsbD 6 = d.getLsbD 3 ∧ (place d).getLsbD 0 = false ∧ (place d).getLsbD 1 = false ∧
      (place d).getLsbD 3 = false) ∧
    ((extract c).getLsbD 3 = c.getLsbD 6 ∧ (extract c).getLsbD 2 = c.getLsbD 5 ∧ (extract c).getLsbD 1 = c.getLsbD 4 ∧
      (extract c).getLsbD 0 = c.getLsbD 2) ∧
    extract (place d) = d

/-! ### The host boundary (43_host_interface.md, 60_exceptions.md) -/

/-- R90: a call on a sequence of characters returns InvalidInput iff the length is wrong or some element is neither '0' nor
'1'; the empty string is invalid for both calls. -/
def Obligations.CallsValidateLengthAndAlphabet : Prop :=
  ∀ (cs : List Char) (s : State),
    (resultOf (exec (.encodeCall (.chars cs)) s) = some .invalidInput ↔
      ¬(cs.length = 4 ∧ ∀ c ∈ cs, c.toNat = 0x30 ∨ c.toNat = 0x31)) ∧
    (resultOf (exec (.decodeCall (.chars cs)) s) = some .invalidInput ↔
      ¬(cs.length = 7 ∧ ∀ c ∈ cs, c.toNat = 0x30 ∨ c.toNat = 0x31)) ∧
    (cs = [] → resultOf (exec (.encodeCall (.chars cs)) s) = some .invalidInput ∧
      resultOf (exec (.decodeCall (.chars cs)) s) = some .invalidInput)

/-- R91: the host call encode.  It completes on every sequence; a valid one gives the string of ENCODE of its word, any other
gives InvalidInput with no partial result; the corner cases and the worked example. -/
def Obligations.EncodeCallReturnsCodewordString : Prop :=
  (∀ (cs : List Char) (s : State), ∃ t, exec (.encodeCall (.chars cs)) s = .next t ∧
    (valid cs 4 = true → t.result = some (.chars (seqOf (ENCODE (BitVec.ofNat 4 (wordOf cs)))))) ∧
    (valid cs 4 = false → t.result = some .invalidInput)) ∧
  ∀ s : State,
    (∀ cs ∈ [[], ['1', '0', '1'], ['1', '0', '1', '1', '0'], ['1', '0', 'a', '1'], [' ', '1', '0', '1', '1']],
      resultOf (exec (.encodeCall (.chars cs)) s) = some .invalidInput) ∧
    resultOf (exec (.encodeCall (.chars ['0', '0', '0', '0'])) s) = some (.chars ['0', '0', '0', '0', '0', '0', '0']) ∧
    resultOf (exec (.encodeCall (.chars ['1', '0', '1', '1'])) s) = some (.chars ['0', '1', '1', '0', '0', '1', '1'])

/-- R92: the host call decode.  It completes on every sequence; a valid one gives the string of DECODE of its word, any other
gives InvalidInput with no partial result; the corner cases and the worked examples. -/
def Obligations.DecodeCallReturnsPayloadString : Prop :=
  (∀ (cs : List Char) (s : State), ∃ t, exec (.decodeCall (.chars cs)) s = .next t ∧
    (valid cs 7 = true → t.result = some (.chars (seqOf (DECODE (BitVec.ofNat 7 (wordOf cs)))))) ∧
    (valid cs 7 = false → t.result = some .invalidInput)) ∧
  ∀ s : State,
    (∀ cs ∈ [['0', '0', '0', '0', '0', '0', '2'], ['0', '1', '1', '0', '0', '1'], ['0', '1', '1', '0', '0', '1', '1', '0']],
      resultOf (exec (.decodeCall (.chars cs)) s) = some .invalidInput) ∧
    resultOf (exec (.decodeCall (.chars ['1', '1', '1', '1', '1', '1', '1'])) s) = some (.chars ['1', '1', '1', '1']) ∧
    resultOf (exec (.decodeCall (.chars ['0', '1', '1', '0', '0', '1', '1'])) s) = some (.chars ['1', '0', '1', '1']) ∧
    resultOf (exec (.decodeCall (.chars ['1', '1', '1', '0', '0', '1', '0'])) s) = some (.chars ['1', '0', '0', '0'])

/-- Derived (R91, R92; that the adapter leaves the argument's word on the port of its sub-block is the model's reading, log 3):
the whole next state of a valid host call, so its frame too. -/
def Obligations.ValidCallsDriveTheirSubBlock : Prop :=
  ∀ (cs : List Char) (s : State),
    (valid cs 4 = true → exec (.encodeCall (.chars cs)) s = .next { s with
      dataIn := BitVec.ofNat 4 (wordOf cs), result := some (.chars (seqOf (closedCode (BitVec.ofNat 4 (wordOf cs))))) }) ∧
    (valid cs 7 = true → exec (.decodeCall (.chars cs)) s = .next { s with
      decCodeIn := BitVec.ofNat 7 (wordOf cs), result := some (.chars (seqOf (closedData (BitVec.ofNat 7 (wordOf cs))))) })

/-- R93: a failed call changes nothing and returns InvalidInput; a retry, at once or in any other state, returns the same;
so does every call. -/
def Obligations.CallsAreIndependentAndFailedOnesChangeNothing : Prop :=
  ∀ (cs : List Char) (s s' : State),
    (valid cs 4 = false → exec (.encodeCall (.chars cs)) s = .next { s with result := some .invalidInput }) ∧
    (valid cs 7 = false → exec (.decodeCall (.chars cs)) s = .next { s with result := some .invalidInput }) ∧
    (∃ r, resultOf (exec (.encodeCall (.chars cs)) s) = some r ∧ resultOf (exec (.encodeCall (.chars cs)) s') = some r) ∧
    (∃ r, resultOf (exec (.decodeCall (.chars cs)) s) = some r ∧ resultOf (exec (.decodeCall (.chars cs)) s') = some r)

/-- R101: InvalidInput is the only error, and these are its causes: no other operation and no other argument gives it. -/
def Obligations.InvalidInputHasExactlyTheseCauses : Prop :=
  ∀ (i : Instr) (s t : State), exec i s = .next t →
    (t.result = some .invalidInput ↔
      (∃ cs, i = .encodeCall (.chars cs) ∧ (cs.length ≠ 4 ∨ ∃ c ∈ cs, c ≠ '0' ∧ c ≠ '1')) ∨
      (∃ cs, i = .decodeCall (.chars cs) ∧ (cs.length ≠ 7 ∨ ∃ c ∈ cs, c ≠ '0' ∧ c ≠ '1')))

/-- R102: the three sub-blocks raise no error for any input word: they complete, and what they return is a word. -/
def Obligations.SubBlocksRaiseNoError : Prop :=
  ∀ (i : Instr) (s : State), i.row = .ENCODE ∨ i.row = .SYNDROME ∨ i.row = .DECODE →
    ∃ t n, exec i s = .next t ∧ t.result = some (.word n)

/-- R104: an argument of the wrong length and one with a non-binary character give the same InvalidInput, and so does one
that is both: the next state does not tell them apart. -/
def Obligations.BothCausesGiveOneInvalidInput : Prop :=
  ∀ (cs cs' : List Char) (s : State),
    (cs.length ≠ 4 → (∃ c ∈ cs', c ≠ '0' ∧ c ≠ '1') →
      ∃ t, exec (.encodeCall (.chars cs)) s = .next t ∧ exec (.encodeCall (.chars cs')) s = .next t ∧
        t.result = some .invalidInput) ∧
    (cs.length ≠ 7 → (∃ c ∈ cs', c ≠ '0' ∧ c ≠ '1') →
      ∃ t, exec (.decodeCall (.chars cs)) s = .next t ∧ exec (.decodeCall (.chars cs')) s = .next t ∧
        t.result = some .invalidInput)

/-- R95: an argument that is no sequence of characters is refused: it is given no result and no InvalidInput. -/
def Obligations.ArgumentsThatAreNoSequenceAreRefused : Prop :=
  ∀ (a : HostValue) (s : State), a.isSequence = false →
    exec (.encodeCall a) s = .refused .argumentNotASequence ∧ exec (.decodeCall a) s = .refused .argumentNotASequence

/-- Derived (93_implementation_defined.md: "no input to any sub-block or host call makes the block trap, hang or have no
result"): every well-formed instruction completes in every state and returns something. -/
def Obligations.EveryWellFormedInstructionCompletes : Prop :=
  ∀ (i : Instr) (s : State), i.wf = true → ∃ t v, exec i s = .next t ∧ t.result = some v ∧ v.bindable = true

/-- Derived (R83, R84, R91, R92, R43), said on strings.  A valid payload string encodes to a string that decodes to
it, as it is and with any one element flipped. -/
def Obligations.StringsSurviveAnySingleError : Prop :=
  ∀ (cs : List Char) (s : State), valid cs 4 = true → ∃ t r, exec (.encodeCall (.chars cs)) s = .next t ∧
    t.result = some (.chars r) ∧ valid r 7 = true ∧
    ∀ s' : State, resultOf (exec (.decodeCall (.chars r)) s') = some (.chars cs) ∧
      ∀ k < 7, flipChar r k ≠ r ∧ resultOf (exec (.decodeCall (.chars (flipChar r k))) s') = some (.chars cs)

/-! ### Frames, independence and determinism -/

/-- Derived (R20, R24, R32, R34): the frame of every instruction.  The further sub-blocks, the host variables, the script and the
count of draws stay, and the input and the output of every sub-block the operation is not performed on stay. -/
def Obligations.InstructionsTouchOnlyTheirOwnSubBlock : Prop :=
  ∀ (i : Instr) (s t : State), exec i s = .next t →
    t.further = s.further ∧ t.vars = s.vars ∧ t.script = s.script ∧ t.draws = s.draws ∧
    ∀ p : Place, p ≠ i.row.place → t.blockAt p = s.blockAt p ∧ t.outputAt p = s.outputAt p

/-- Derived (R21, R32, R93): performing an operation again gives the same state again. -/
def Obligations.RepeatingAnOperationChangesNothing : Prop :=
  ∀ (i : Instr) (s t : State), exec i s = .next t → exec i t = .next t

/-- Derived (R20, R21, R93, R121): what an operation returns, or why it is refused, is a function of the operation alone; no earlier
input and nothing else in the state plays a part, so nothing has to be initialised. -/
def Obligations.ResultsDependOnTheOperationAlone : Prop :=
  ∀ (i : Instr) (s : State), resultOf (exec i s) = resultOf (exec i State.reset) ∧
    refusalOf (exec i s) = refusalOf (exec i State.reset)

/-- Derived (R34): two operations in either order return the same, and where they are performed on different sub-blocks every port ends the
same. -/
def Obligations.OrderOfOperationsDoesNotMatter : Prop :=
  ∀ (i j : Instr) (s t u : State), exec i s = .next t → exec j t = .next u →
    ∃ t' u', exec j s = .next t' ∧ exec i t' = .next u' ∧ t'.result = u.result ∧ u'.result = t.result ∧
      (i.row.place ≠ j.row.place → ∀ p, u'.blockAt p = u.blockAt p)

/-- Derived (R21, R34, R111): driving one input port, whichever and however many further sub-blocks there are, leaves every other sub-block's
output, and its own output is the rule's value of its new input alone. -/
def Obligations.DrivingOnePortLeavesTheOthers : Prop :=
  ∀ (s t : State) (p : Place) (w : Nat), s.driveAt p w = .ok t →
    (∀ q, q ≠ p → t.blockAt q = s.blockAt q ∧ t.outputAt q = s.outputAt q) ∧
    (∀ b, s.blockAt p = .ok b → ∃ b', b.withInput w = some b' ∧ t.blockAt p = .ok b' ∧ t.outputAt p = .ok b'.output)

/-- Derived (R25, R34): ports driven at the same time can be driven in any order. -/
def Obligations.PortsDrivenTogetherInAnyOrder : Prop :=
  ∀ (ds ds' : List (Place × Nat)) (s t : State), ds.Perm ds' → (ds.map Prod.fst).Nodup →
    s.driveAll ds = .ok t → s.driveAll ds' = .ok t

/-- Derived (R22, R23, R24, R25, R108; that a word too wide for its port is refused by name is the model's choice, log 11, DESIGN CHOICE, and
that the host points at a further sub-block by its position is log 2): the input port of every sub-block there is takes every word
that fits it, and its output is then the rule's value of that word; a word that does not fit is refused by name. -/
def Obligations.EveryInputPortTakesEveryFittingWord : Prop :=
  ∀ (s : State) (p : Place) (b : SubBlock) (w : Nat), s.blockAt p = .ok b →
    (w < 2 ^ b.width → ∃ t b', s.driveAt p w = .ok t ∧ t.blockAt p = .ok b' ∧ b'.input = w ∧ b'.width = b.width ∧
      t.outputAt p = .ok b'.output) ∧
    (2 ^ b.width ≤ w → s.driveAt p w = .error (.wordDoesNotFit w))

/-- Derived (R25, R34, R108, R111; the drive action is the model's own form, logs 4 and 15, and refusing a port driven twice is log 11):
a step that drives any list of input ports, none twice, each with a word that fits it, completes with every port driven,
every other sub-block as before and the host's side unchanged. -/
def Obligations.DriveStepDrivesEveryListedPort : Prop :=
  ∀ (s : State) (ds : List (Place × Nat)) (rest : List HostAction), s.script = .drive ds :: rest →
    ((ds.map Prod.fst).Nodup → (∀ d ∈ ds, ∃ b, s.blockAt d.1 = .ok b ∧ d.2 < 2 ^ b.width) →
      ∃ t, step s = .next t ∧ State.driveAll { s with script := rest } ds = .ok t ∧
        t.result = s.result ∧ t.vars = s.vars ∧ t.script = rest ∧ t.draws = s.draws ∧
        (∀ d ∈ ds, ∃ b, t.blockAt d.1 = .ok b ∧ b.input = d.2 ∧ t.outputAt d.1 = .ok b.output) ∧
        ∀ q, q ∉ ds.map Prod.fst → t.blockAt q = s.blockAt q ∧ t.outputAt q = s.outputAt q) ∧
    (¬(ds.map Prod.fst).Nodup → step s = .refused .drivenTwice)

/-- Derived (R111; that a sub-block can be set up while a script runs is the model's own form, log 2): a further sub-block needs
no start-up: its output follows at once, and every other output stays. -/
def Obligations.AttachedSubBlockFollowsAtOnce : Prop :=
  ∀ (b : SubBlock) (s : State), ∃ t, runAction (.attach b) s = .next t ∧
    t.outputAt (.further s.further.length) = .ok b.output ∧
    ∀ p, p ≠ .further s.further.length → t.outputAt p = s.outputAt p

/-- Derived (R123, R6; the sample action and its unit of time are the model's own form, log 5; that binding an x already bound
replaces its value is log 8, DESIGN CHOICE, unsafe): once the input has held for the
delay the sample is the rule's value; before, it is a free value; every delay is positive. -/
def Obligations.SampleSettlesAfterTheDelay : Prop :=
  ∀ (s u : State) (x : Var) (p : Place) (w n : Nat) (old b : SubBlock),
    s.blockAt p = .ok old → s.driveAt p w = .ok u → u.blockAt p = .ok b →
    0 < b.delay ∧
    (b.delay ≤ n → runAction (.sample x p w n) s = .next (u.bindVar x (.word b.output))) ∧
    (n < b.delay → runAction (.sample x p w n) s =
      .next { u.bindVar x (.word (b.unsettled s.draws old.input n)) with draws := s.draws + 1 })

/-- Derived (R12; R61, R71 and R80's closed forms): the closed forms are a conforming realisation. -/
def Obligations.ClosedFormsConform : Prop := closedForms.Conforms

/-- Derived (90_conflicts.md C1): under the rejected reading of the decoder's step 1, which recomputes the parity with the
received parity bit, exactly the eight listed payloads do not come back. -/
def Obligations.RejectedReadingBreaksEightPayloads : Prop :=
  (∀ (d : W4) (s : State), ∃ t, exec (.encodePort d) s = .next t ∧
    (rejectedDecode t.codeOut ≠ d ↔ seqOf d ∈ [['0', '0', '0', '1'], ['0', '0', '1', '0'], ['0', '1', '0', '0'],
      ['0', '1', '1', '0'], ['1', '0', '0', '0'], ['1', '0', '1', '0'], ['1', '1', '0', '0'], ['1', '1', '1', '1']])) ∧
  seqOf (rejectedDecode (BitVec.ofNat 7 (wordOf ['1', '1', '1', '0', '0', '1', '0']))) = ['1', '1', '1', '0']

/-- Derived (R26): the nets each block names are the values its output is made of: p1, p2, p4; s1, s2, s4; syn, which is the
syndrome, flip, which is the one bit at index syn - 1 or nothing, and corrected. -/
def Obligations.NamedNetsMakeTheOutputs : Prop :=
  ∀ (d : W4) (c : W7) (s : State),
    (∃ t, exec (.encodePort d) s = .next t ∧
      parityNets d = (t.codeOut.getLsbD 0, t.codeOut.getLsbD 1, t.codeOut.getLsbD 3) ∧
      parityNets d = (d.getLsbD 0 ^^ d.getLsbD 1 ^^ d.getLsbD 3, d.getLsbD 0 ^^ d.getLsbD 2 ^^ d.getLsbD 3,
        d.getLsbD 1 ^^ d.getLsbD 2 ^^ d.getLsbD 3)) ∧
    (∃ t, exec (.syndromePort c) s = .next t ∧ checkNets c = (closedS1 c, closedS2 c, closedS4 c) ∧
      t.syndromeOut = BitVec.ofBool (checkNets c).2.2 ++ BitVec.ofBool (checkNets c).2.1 ++ BitVec.ofBool (checkNets c).1) ∧
    (∃ t, exec (.decodePort c) s = .next t ∧
      (decoderNets c).1 = SYNDROME c ∧ (decoderNets c).1 = closedSyndrome c ∧
      ((decoderNets c).1 ≠ 0 → (decoderNets c).2.1 = 1#7 <<< ((decoderNets c).1.toNat - 1)) ∧
      ((decoderNets c).1 = 0 → (decoderNets c).2.1 = 0) ∧
      (decoderNets c).2.2 = c ^^^ (decoderNets c).2.1 ∧ weight (decoderNets c).2.1 ≤ 1 ∧
      t.dataOut = extract (decoderNets c).2.2)

/-! ### Encoding -/

/-- Derived (R46, R51): decoding the encoding of any instruction gives it back, every operand at every value. -/
def Obligations.DecodeOfEncodeIsTheInstruction : Prop :=
  ∀ i : Instr, decode (encode i) = .ok i

/-- Derived (R46, R49, R51): every encoded operation the decoder takes is the encoding of the instruction it reads. -/
def Obligations.EncodeOfDecodeIsTheCode : Prop :=
  ∀ (code : Code) (i : Instr), decode code = .ok i → encode i = code

/-- Derived (R47, R49, D2): which encoded operations the decoder takes: a port takes every word of its own width and of no other, an entry
point takes every argument. -/
def Obligations.DecoderTakesEveryWordOfItsWidth : Prop :=
  ∀ (row : Row) (bs : List Bool) (a : HostValue),
    ((∃ i, decode ⟨row, .bits bs⟩ = .ok i) ↔ row.width = some bs.length) ∧
    ((∃ i, decode ⟨row, .argument a⟩ = .ok i) ↔ row.width = none)

/-- Derived (R40, R41, R46, R51, 95_test_vectors.md L3): a few encoded operations written out from the spec decode to what they stand
for. -/
def Obligations.SampleCodesDecodeRight : Prop :=
  decode ⟨.ENCODE, .bits [true, false, true, true]⟩ = .ok (.encodePort 0b1101) ∧
  decode ⟨.SYNDROME, .bits [false, true, true, false, false, true, true]⟩ = .ok (.syndromePort 0b1100110) ∧
  decode ⟨.DECODE, .bits [false, false, true, true, true, false, true]⟩ = .ok (.decodePort 0b1011100) ∧
  decode ⟨.encode, .argument (.chars ['1', '0', '1', '1'])⟩ = .ok (.encodeCall (.chars ['1', '0', '1', '1'])) ∧
  decode ⟨.decode, .argument (.chars ['1', '1', '1', '0', '0', '1', '0'])⟩ =
    .ok (.decodeCall (.chars ['1', '1', '1', '0', '0', '1', '0']))

/-! ### The step -/

/-- Derived (R36, R46, R51, R122; log 4): a step performs the operation the next action encodes, as one indivisible step; a
table word placed by `withFetchWord` is that next action; where the decoder refuses the step stops by name; with
nothing pending nothing changes. -/
def Obligations.StepPerformsTheDecodedOperation : Prop :=
  (∀ (s : State) (code : Code) (rest : List HostAction), s.script = .issue code :: rest →
    (∀ i, decode code = .ok i → step s = exec i { s with script := rest }) ∧
    (∀ e, decode code = .error e → step s = .refused (.undecodable e))) ∧
  (∀ (s : State) (nbits w : Nat) (i : Instr), decodeTableWord nbits w = some i → step (s.withFetchWord nbits w) = exec i s) ∧
  ∀ s : State, s.script = [] → step s = .next s

/-- Derived (R51, and three choices of the model: it takes a bound word or a literal, log 16, of any origin that fits the port, log 9,
DESIGN CHOICE, unsafe; x may already be bound, even by src, and is then replaced, log 8, DESIGN CHOICE, unsafe): a script step
`x := ENCODE(v)`, `SYNDROME(v)` or `DECODE(v)` on a word that fits the port binds the rule's value to x, and every other variable
keeps its own. -/
def Obligations.ScriptPortStepsBindTheRuleValue : Prop :=
  ∀ (s : State) (x : Var) (src : Operand) (rest : List HostAction) (n : Nat), operandValue src s.vars = .ok (.word n) →
    (s.script = .bindOp x .ENCODE src :: rest → n < 16 → ∃ t, step s = .next t ∧ t.script = rest ∧
      lookup x t.vars = some (.word (closedCode (BitVec.ofNat 4 n)).toNat) ∧ ∀ y ≠ x, lookup y t.vars = lookup y s.vars) ∧
    (s.script = .bindOp x .SYNDROME src :: rest → n < 128 → ∃ t, step s = .next t ∧ t.script = rest ∧
      lookup x t.vars = some (.word (closedSyndrome (BitVec.ofNat 7 n)).toNat) ∧
      ∀ y ≠ x, lookup y t.vars = lookup y s.vars) ∧
    (s.script = .bindOp x .DECODE src :: rest → n < 128 → ∃ t, step s = .next t ∧ t.script = rest ∧
      lookup x t.vars = some (.word (closedData (BitVec.ofNat 7 n)).toNat) ∧ ∀ y ≠ x, lookup y t.vars = lookup y s.vars)

/-- Derived (R51, R91, R92, and two choices of the model: it takes a bound string or a literal one, log 16; x may already be bound, even by
src, and is then replaced, log 8, DESIGN CHOICE, unsafe): a script step `x := encode(v)` or `decode(v)` on a string binds the returned
string, or the value InvalidInput, to x, and every other variable keeps its own. -/
def Obligations.ScriptCallStepsBindTheResult : Prop :=
  ∀ (s : State) (x : Var) (src : Operand) (rest : List HostAction) (cs : List Char),
    operandValue src s.vars = .ok (.chars cs) →
    (s.script = .bindOp x .encode src :: rest → ∃ t, step s = .next t ∧ t.script = rest ∧
      lookup x t.vars = some (if valid cs 4 then .chars (seqOf (ENCODE (BitVec.ofNat 4 (wordOf cs)))) else .invalidInput) ∧
      ∀ y ≠ x, lookup y t.vars = lookup y s.vars) ∧
    (s.script = .bindOp x .decode src :: rest → ∃ t, step s = .next t ∧ t.script = rest ∧
      lookup x t.vars = some (if valid cs 7 then .chars (seqOf (DECODE (BitVec.ofNat 7 (wordOf cs)))) else .invalidInput) ∧
      ∀ y ≠ x, lookup y t.vars = lookup y s.vars)

/-- Derived (R51, R9, R43; where no word is stated for an operand the step runs with a free value, log 18, DESIGN CHOICE, and every
effect computed from it follows; a string stands for its word, log 18; a word of any origin is taken, log 9, DESIGN CHOICE, unsafe; a
literal operand, log 16; x may already be bound, log 8, DESIGN CHOICE, unsafe): a port step of a script completes on EVERY operand that
has a value, drives its own port with one word, binds the rule's value of that word to x and changes nothing else; the word is the
operand's own where it is a word that fits or a binary string of the port's length. -/
def Obligations.ScriptPortStepsRunOnEveryOperand : Prop :=
  ∀ (s : State) (x : Var) (src : Operand) (rest : List HostAction) (v : HostValue), operandValue src s.vars = .ok v →
    (s.script = .bindOp x .ENCODE src :: rest → ∃ t w, step s = .next t ∧
      t = { s with dataIn := w, result := some (.word (closedCode w).toNat), script := rest, vars := t.vars, draws := t.draws } ∧
      lookup x t.vars = some (.word (closedCode w).toNat) ∧ (∀ y ≠ x, lookup y t.vars = lookup y s.vars) ∧
      (∀ n, v = .word n → n < 16 → w = BitVec.ofNat 4 n ∧ t.draws = s.draws) ∧
      (∀ cs, v = .chars cs → valid cs 4 = true → w = BitVec.ofNat 4 (wordOf cs) ∧ t.draws = s.draws) ∧
      (statedWord 4 v = none → w = Config.freeDataIn s.draws v ∧ t.draws = s.draws + 1)) ∧
    (s.script = .bindOp x .SYNDROME src :: rest → ∃ t w, step s = .next t ∧
      t = { s with
        synCodeIn := w, result := some (.word (closedSyndrome w).toNat), script := rest, vars := t.vars, draws := t.draws } ∧
      lookup x t.vars = some (.word (closedSyndrome w).toNat) ∧ (∀ y ≠ x, lookup y t.vars = lookup y s.vars) ∧
      (∀ n, v = .word n → n < 128 → w = BitVec.ofNat 7 n ∧ t.draws = s.draws) ∧
      (∀ cs, v = .chars cs → valid cs 7 = true → w = BitVec.ofNat 7 (wordOf cs) ∧ t.draws = s.draws) ∧
      (statedWord 7 v = none → w = Config.freeSynCodeIn s.draws v ∧ t.draws = s.draws + 1)) ∧
    (s.script = .bindOp x .DECODE src :: rest → ∃ t w, step s = .next t ∧
      t = { s with decCodeIn := w, result := some (.word (closedData w).toNat), script := rest, vars := t.vars, draws := t.draws } ∧
      lookup x t.vars = some (.word (closedData w).toNat) ∧ (∀ y ≠ x, lookup y t.vars = lookup y s.vars) ∧
      (∀ n, v = .word n → n < 128 → w = BitVec.ofNat 7 n ∧ t.draws = s.draws) ∧
      (∀ cs, v = .chars cs → valid cs 7 = true → w = BitVec.ofNat 7 (wordOf cs) ∧ t.draws = s.draws) ∧
      (statedWord 7 v = none → w = Config.freeDecCodeIn s.draws v ∧ t.draws = s.draws + 1))

/-- Derived (R51, R9, R43; the choices of logs 8, 9, 17 and 18, as in the two statements beside it): a channel-error step completes on
every bound source and every mask, binds the XOR of one W7 word for each and changes nothing else; the word is the operand's own where it
is a word that fits or a codeword string, else a free value. -/
def Obligations.ChannelStepsRunOnEveryOperand : Prop :=
  ∀ (s : State) (x src : Var) (mask : Literal) (rest : List HostAction) (v : HostValue), lookup src s.vars = some v →
    s.script = .bindXor x src mask :: rest → ∃ (t : State) (a b : W7), step s = .next t ∧
      t = { s with script := rest, vars := t.vars, draws := t.draws } ∧
      lookup x t.vars = some (.word (a ^^^ b).toNat) ∧ (∀ y ≠ x, lookup y t.vars = lookup y s.vars) ∧
      (∀ n, v = .word n → n < 128 → a = BitVec.ofNat 7 n) ∧
      (∀ cs, v = .chars cs → valid cs 7 = true → a = BitVec.ofNat 7 (wordOf cs)) ∧
      (statedWord 7 v = none → a = Config.freeChannelSource s.draws v) ∧
      (∀ m, mask = .word m → m < 128 → b = BitVec.ofNat 7 m) ∧
      (∀ cs, mask = .string cs → valid cs 7 = true → b = BitVec.ofNat 7 (wordOf cs)) ∧
      (statedWord 7 mask.value = none → b = Config.freeChannelMask s.draws mask.value) ∧
      (t.draws = s.draws ↔ statedWord 7 v ≠ none ∧ statedWord 7 mask.value ≠ none)

/-- Derived (R51, R43, and three choices of the model: x may already be bound and is then replaced, log 8, DESIGN CHOICE, unsafe; any bound word
below 128 is taken as a W7 word, log 9, DESIGN CHOICE, unsafe; a valid codeword string as mask stands for its word, log 17, DESIGN
CHOICE, unsafe): a literal step binds its literal; a channel-error step binds the XOR of a W7 word with the mask; either touches no
sub-block and no result. -/
def Obligations.ScriptLiteralAndChannelSteps : Prop :=
  ∀ (s : State) (x : Var) (rest : List HostAction),
    (∀ l, s.script = .bindLit x l :: rest →
      ∃ t, step s = .next t ∧ lookup x t.vars = some l.value ∧ t = { s with script := rest, vars := t.vars } ∧
        ∀ y ≠ x, lookup y t.vars = lookup y s.vars) ∧
    (∀ src n m, lookup src s.vars = some (.word n) → n < 128 → m < 128 →
      (s.script = .bindXor x src (.word m) :: rest ∨ s.script = .bindXor x src (.string (seqOf (BitVec.ofNat 7 m))) :: rest) →
      ∃ t, step s = .next t ∧ lookup x t.vars = some (.word (BitVec.ofNat 7 n ^^^ BitVec.ofNat 7 m).toNat) ∧
        t = { s with script := rest, vars := t.vars } ∧ ∀ y ≠ x, lookup y t.vars = lookup y s.vars)

/-- Derived (R108, R111, R21, and what is the model's own: the read action that binds a variable, which is no step of R51, log 4; that the
output read is the settled one, log 10, DEDUCED, unsafe for an early sample; an x already bound is replaced, log 8, DESIGN CHOICE,
unsafe): reading the output port of any sub-block there is, a further one too, binds its output and changes nothing else; on the three
sub-blocks of R1 that output is the rule's value of the current input. -/
def Obligations.ReadingAPortBindsItsOutput : Prop :=
  ∀ (s : State) (x : Var) (p : Place) (rest : List HostAction), s.script = .read x p :: rest →
    (∀ w, s.outputAt p = .ok w → ∃ t, step s = .next t ∧ lookup x t.vars = some (.word w) ∧
      t = { s with script := rest, vars := t.vars } ∧ ∀ y ≠ x, lookup y t.vars = lookup y s.vars) ∧
    (∀ b, s.blockAt p = .ok b → s.outputAt p = .ok b.output) ∧
    (p = .encoder → s.outputAt p = .ok (closedCode s.dataIn).toNat) ∧
    (p = .syndromeCalculator → s.outputAt p = .ok (closedSyndrome s.synCodeIn).toNat) ∧
    (p = .decoder → s.outputAt p = .ok (closedData s.decCodeIn).toNat)

/-! ### The invariant -/

/-- Derived (R51 for the empty binding, R21 for the output; that nothing is pending and nothing has been returned is the model's choice,
log 1, DESIGN CHOICE, as are the zeros on the input wires, which the statement does not name): what power-up leaves, and that it meets the
invariant. -/
def Obligations.PowerUpMeetsTheInvariant : Prop :=
  State.reset.Inv ∧ State.reset.vars = [] ∧ State.reset.script = [] ∧ State.reset.result = none ∧
    State.reset.codeOut = ENCODE State.reset.dataIn

/-- Derived (R8, R51; the canonical form of the variables is the model's own, log 7 and log 8, and so
is the limit 128 of a word literal, log 19): every step keeps the invariant: the host
variables in canonical form, every value held one a host variable can
hold, every pending action well formed. -/
def Obligations.EveryStepKeepsTheInvariant : Prop :=
  ∀ s t : State, s.Inv → step s = .next t → t.Inv
end

