-- ==== Sys2Proof/Laws/State.lean ====
section
/-! SUPPORT. One lemma per field per update of State. -/

namespace Sys2Proof.Machine.State

variable (s : State)

@[simp] theorem driveEncoder_dataIn (d : W4) : (s.driveEncoder d).dataIn = d := rfl
@[simp] theorem driveEncoder_synCodeIn (d : W4) : (s.driveEncoder d).synCodeIn = s.synCodeIn := rfl
@[simp] theorem driveEncoder_decCodeIn (d : W4) : (s.driveEncoder d).decCodeIn = s.decCodeIn := rfl
@[simp] theorem driveEncoder_further (d : W4) : (s.driveEncoder d).further = s.further := rfl
@[simp] theorem driveEncoder_result (d : W4) : (s.driveEncoder d).result = s.result := rfl
@[simp] theorem driveEncoder_vars (d : W4) : (s.driveEncoder d).vars = s.vars := rfl
@[simp] theorem driveEncoder_script (d : W4) : (s.driveEncoder d).script = s.script := rfl
@[simp] theorem driveEncoder_draws (d : W4) : (s.driveEncoder d).draws = s.draws := rfl

@[simp] theorem driveSyndrome_dataIn (c : W7) : (s.driveSyndrome c).dataIn = s.dataIn := rfl
@[simp] theorem driveSyndrome_synCodeIn (c : W7) : (s.driveSyndrome c).synCodeIn = c := rfl
@[simp] theorem driveSyndrome_decCodeIn (c : W7) : (s.driveSyndrome c).decCodeIn = s.decCodeIn := rfl
@[simp] theorem driveSyndrome_further (c : W7) : (s.driveSyndrome c).further = s.further := rfl
@[simp] theorem driveSyndrome_result (c : W7) : (s.driveSyndrome c).result = s.result := rfl
@[simp] theorem driveSyndrome_vars (c : W7) : (s.driveSyndrome c).vars = s.vars := rfl
@[simp] theorem driveSyndrome_script (c : W7) : (s.driveSyndrome c).script = s.script := rfl
@[simp] theorem driveSyndrome_draws (c : W7) : (s.driveSyndrome c).draws = s.draws := rfl

@[simp] theorem driveDecoder_dataIn (c : W7) : (s.driveDecoder c).dataIn = s.dataIn := rfl
@[simp] theorem driveDecoder_synCodeIn (c : W7) : (s.driveDecoder c).synCodeIn = s.synCodeIn := rfl
@[simp] theorem driveDecoder_decCodeIn (c : W7) : (s.driveDecoder c).decCodeIn = c := rfl
@[simp] theorem driveDecoder_further (c : W7) : (s.driveDecoder c).further = s.further := rfl
@[simp] theorem driveDecoder_result (c : W7) : (s.driveDecoder c).result = s.result := rfl
@[simp] theorem driveDecoder_vars (c : W7) : (s.driveDecoder c).vars = s.vars := rfl
@[simp] theorem driveDecoder_script (c : W7) : (s.driveDecoder c).script = s.script := rfl
@[simp] theorem driveDecoder_draws (c : W7) : (s.driveDecoder c).draws = s.draws := rfl

@[simp] theorem returning_dataIn (v : HostValue) : (s.returning v).dataIn = s.dataIn := rfl
@[simp] theorem returning_synCodeIn (v : HostValue) : (s.returning v).synCodeIn = s.synCodeIn := rfl
@[simp] theorem returning_decCodeIn (v : HostValue) : (s.returning v).decCodeIn = s.decCodeIn := rfl
@[simp] theorem returning_further (v : HostValue) : (s.returning v).further = s.further := rfl
@[simp] theorem returning_result (v : HostValue) : (s.returning v).result = some v := rfl
@[simp] theorem returning_vars (v : HostValue) : (s.returning v).vars = s.vars := rfl
@[simp] theorem returning_script (v : HostValue) : (s.returning v).script = s.script := rfl
@[simp] theorem returning_draws (v : HostValue) : (s.returning v).draws = s.draws := rfl

@[simp] theorem raiseInvalidInput_dataIn : (s.raiseInvalidInput).dataIn = s.dataIn := rfl
@[simp] theorem raiseInvalidInput_synCodeIn : (s.raiseInvalidInput).synCodeIn = s.synCodeIn := rfl
@[simp] theorem raiseInvalidInput_decCodeIn : (s.raiseInvalidInput).decCodeIn = s.decCodeIn := rfl
@[simp] theorem raiseInvalidInput_further : (s.raiseInvalidInput).further = s.further := rfl
@[simp] theorem raiseInvalidInput_result : (s.raiseInvalidInput).result = some .invalidInput := rfl
@[simp] theorem raiseInvalidInput_vars : (s.raiseInvalidInput).vars = s.vars := rfl
@[simp] theorem raiseInvalidInput_script : (s.raiseInvalidInput).script = s.script := rfl
@[simp] theorem raiseInvalidInput_draws : (s.raiseInvalidInput).draws = s.draws := rfl

@[simp] theorem bindVar_dataIn (x : Var) (v : HostValue) : (s.bindVar x v).dataIn = s.dataIn := rfl
@[simp] theorem bindVar_synCodeIn (x : Var) (v : HostValue) : (s.bindVar x v).synCodeIn = s.synCodeIn := rfl
@[simp] theorem bindVar_decCodeIn (x : Var) (v : HostValue) : (s.bindVar x v).decCodeIn = s.decCodeIn := rfl
@[simp] theorem bindVar_further (x : Var) (v : HostValue) : (s.bindVar x v).further = s.further := rfl
@[simp] theorem bindVar_result (x : Var) (v : HostValue) : (s.bindVar x v).result = s.result := rfl
@[simp] theorem bindVar_vars (x : Var) (v : HostValue) : (s.bindVar x v).vars = insertVar x v s.vars := rfl
@[simp] theorem bindVar_script (x : Var) (v : HostValue) : (s.bindVar x v).script = s.script := rfl
@[simp] theorem bindVar_draws (x : Var) (v : HostValue) : (s.bindVar x v).draws = s.draws := rfl

@[simp] theorem countDraw_dataIn (b : Bool) : (s.countDraw b).dataIn = s.dataIn := rfl
@[simp] theorem countDraw_synCodeIn (b : Bool) : (s.countDraw b).synCodeIn = s.synCodeIn := rfl
@[simp] theorem countDraw_decCodeIn (b : Bool) : (s.countDraw b).decCodeIn = s.decCodeIn := rfl
@[simp] theorem countDraw_further (b : Bool) : (s.countDraw b).further = s.further := rfl
@[simp] theorem countDraw_result (b : Bool) : (s.countDraw b).result = s.result := rfl
@[simp] theorem countDraw_vars (b : Bool) : (s.countDraw b).vars = s.vars := rfl
@[simp] theorem countDraw_script (b : Bool) : (s.countDraw b).script = s.script := rfl
@[simp] theorem countDraw_draws (b : Bool) : (s.countDraw b).draws = s.draws + b.toNat := rfl

@[simp] theorem driveEncoder_codeOut (d : W4) : (s.driveEncoder d).codeOut = ENCODE d := rfl
@[simp] theorem driveSyndrome_syndromeOut (c : W7) : (s.driveSyndrome c).syndromeOut = SYNDROME c := rfl
@[simp] theorem driveDecoder_dataOut (c : W7) : (s.driveDecoder c).dataOut = DECODE c := rfl
@[simp] theorem returning_codeOut (v : HostValue) : (s.returning v).codeOut = s.codeOut := rfl
@[simp] theorem returning_syndromeOut (v : HostValue) : (s.returning v).syndromeOut = s.syndromeOut := rfl
@[simp] theorem returning_dataOut (v : HostValue) : (s.returning v).dataOut = s.dataOut := rfl

/-- Binding the result of an operation changes the host variables at most. -/
theorem bindResult_eq (x : Var) :
    s.bindResult x = s ∨ ∃ v, s.result = some v ∧ s.bindResult x = s.bindVar x v := by
  unfold bindResult
  cases h : s.result with
  | none => exact .inl rfl
  | some v => exact .inr ⟨v, rfl, rfl⟩

theorem bindResult_of_result {v : HostValue} (x : Var) (h : s.result = some v) :
    s.bindResult x = s.bindVar x v := by
  simp [bindResult, h]

end Sys2Proof.Machine.State
end

