-- ==== Sys2Proof/Laws/Drive.lean ====
section
/-! SUPPORT. Driving an input port by place: everything it can do. -/

namespace Sys2Proof.Machine

/-- A sub-block's new input fits its port, and its kind stays. -/
theorem withInput_cases {b b' : SubBlock} {w : Nat} (h : b.withInput w = some b') :
    (∃ d, b = .encoder d ∧ w < 16 ∧ b' = .encoder (BitVec.ofNat 4 w)) ∨
    (∃ c, b = .syndromeCalculator c ∧ w < 128 ∧ b' = .syndromeCalculator (BitVec.ofNat 7 w)) ∨
    (∃ c, b = .decoder c ∧ w < 128 ∧ b' = .decoder (BitVec.ofNat 7 w)) := by
  cases b <;> simp only [SubBlock.withInput] at h <;> split at h <;> simp_all [eq_comm]

/-- A word that fits the port is taken. -/
theorem withInput_of_fits {b : SubBlock} {w : Nat} (h : w < 2 ^ b.width) : ∃ b', b.withInput w = some b' := by
  cases b with
  | encoder d => exact ⟨_, if_pos h⟩
  | syndromeCalculator c => exact ⟨_, if_pos h⟩
  | decoder c => exact ⟨_, if_pos h⟩

/-- The inversion lemma of `driveAt`. -/
theorem driveAt_ok_cases {s t : State} {p : Place} {w : Nat} (h : s.driveAt p w = .ok t) :
    (p = .encoder ∧ w < 16 ∧ t = s.driveEncoder (BitVec.ofNat 4 w)) ∨
    (p = .syndromeCalculator ∧ w < 128 ∧ t = s.driveSyndrome (BitVec.ofNat 7 w)) ∨
    (p = .decoder ∧ w < 128 ∧ t = s.driveDecoder (BitVec.ofNat 7 w)) ∨
    (∃ k b b', p = .further k ∧ s.further[k]? = some b ∧ b.withInput w = some b' ∧
      t = { s with further := s.further.set k b' }) := by
  cases p with
  | further k =>
    simp only [State.driveAt] at h
    split at h
    · simp at h
    · rename_i b hb
      split at h
      · rename_i b' hb'
        cases h
        exact .inr (.inr (.inr ⟨k, b, b', rfl, hb, hb', rfl⟩))
      · simp at h
  | encoder => simp only [State.driveAt] at h; split at h <;> simp_all [eq_comm]
  | syndromeCalculator => simp only [State.driveAt] at h; split at h <;> simp_all [eq_comm]
  | decoder => simp only [State.driveAt] at h; split at h <;> simp_all [eq_comm]

/-- Driving a port touches nothing on the host's side. -/
theorem driveAt_frame {s t : State} {p : Place} {w : Nat} (h : s.driveAt p w = .ok t) :
    t.result = s.result ∧ t.vars = s.vars ∧ t.script = s.script ∧ t.draws = s.draws := by
  rcases driveAt_ok_cases h with ⟨-, -, rfl⟩ | ⟨-, -, rfl⟩ | ⟨-, -, rfl⟩ | ⟨k, b, b', -, -, -, rfl⟩ <;> simp

/-- Driving several ports touches nothing on the host's side. -/
theorem driveAll_frame {ds : List (Place × Nat)} {s t : State} (h : s.driveAll ds = .ok t) :
    t.result = s.result ∧ t.vars = s.vars ∧ t.script = s.script ∧ t.draws = s.draws := by
  induction ds generalizing s with
  | nil => cases h; simp
  | cons d rest ih =>
    obtain ⟨p, w⟩ := d
    simp only [State.driveAll] at h
    split at h
    · simp at h
    · rename_i u hu
      have h1 := driveAt_frame hu
      have h2 := ih h
      exact ⟨h2.1.trans h1.1, h2.2.1.trans h1.2.1, h2.2.2.1.trans h1.2.2.1, h2.2.2.2.trans h1.2.2.2⟩

end Sys2Proof.Machine
end

