-- ==== Sys2Proof/Laws/Exec.lean ====
section
/-! SUPPORT. Everything an instruction can do, said once. -/

namespace Sys2Proof.Machine

/-- The meaning of `encode` on a sequence: it runs, and it returns `encodeResult`. -/
theorem execEncodeCall_chars (cs : List Char) (s : State) :
    execEncodeCall (.chars cs) s = .next (if valid cs 4
      then (s.driveEncoder (BitVec.ofNat 4 (wordOf cs))).returning (.chars (seqOf (ENCODE (BitVec.ofNat 4 (wordOf cs)))))
      else s.raiseInvalidInput) := by
  simp only [execEncodeCall, encodeResult]
  by_cases h : valid cs 4 = true <;> simp [h, hostValueOf]

/-- The meaning of `decode` on a sequence: it runs, and it returns `decodeResult`. -/
theorem execDecodeCall_chars (cs : List Char) (s : State) :
    execDecodeCall (.chars cs) s = .next (if valid cs 7
      then (s.driveDecoder (BitVec.ofNat 7 (wordOf cs))).returning (.chars (seqOf (DECODE (BitVec.ofNat 7 (wordOf cs)))))
      else s.raiseInvalidInput) := by
  simp only [execDecodeCall, decodeResult]
  by_cases h : valid cs 7 = true <;> simp [h, hostValueOf]

/-- The inversion lemma of `exec`: a next state is the old one with at most one sub-block driven and a result returned. -/
theorem exec_next_cases {i : Instr} {s t : State} (h : exec i s = .next t) :
    (∃ d v, t = (s.driveEncoder d).returning v ∧ (v = .word (ENCODE d).toNat ∨ v = .chars (seqOf (ENCODE d)))) ∨
    (∃ c, t = (s.driveSyndrome c).returning (.word (SYNDROME c).toNat)) ∨
    (∃ c v, t = (s.driveDecoder c).returning v ∧ (v = .word (DECODE c).toNat ∨ v = .chars (seqOf (DECODE c)))) ∨
    t = s.raiseInvalidInput := by
  cases i with
  | encodePort d => cases h; exact .inl ⟨d, _, rfl, .inl rfl⟩
  | syndromePort c => cases h; exact .inr (.inl ⟨c, rfl⟩)
  | decodePort c => cases h; exact .inr (.inr (.inl ⟨c, _, rfl, .inl rfl⟩))
  | encodeCall a =>
    cases a with
    | chars cs =>
      simp only [exec, execEncodeCall_chars] at h
      cases h
      by_cases hv : valid cs 4 = true
      · rw [if_pos hv]
        exact .inl ⟨_, _, rfl, .inr rfl⟩
      · rw [if_neg hv]
        exact .inr (.inr (.inr rfl))
    | word n => cases h
    | invalidInput => cases h
    | other o => cases h
  | decodeCall a =>
    cases a with
    | chars cs =>
      simp only [exec, execDecodeCall_chars] at h
      cases h
      by_cases hv : valid cs 7 = true
      · rw [if_pos hv]
        exact .inr (.inr (.inl ⟨_, _, rfl, .inr rfl⟩))
      · rw [if_neg hv]
        exact .inr (.inr (.inr rfl))
    | word n => cases h
    | invalidInput => cases h
    | other o => cases h

end Sys2Proof.Machine
end

