-- ==== Sys2Proof/Laws/Operands.lean ====
section
/-! SUPPORT. The small lemmas of strings and words. -/

namespace Sys2Proof.Machine

/-- R90 as a proposition. -/
theorem valid_iff (cs : List Char) (n : Nat) : valid cs n = true ↔ cs.length = n ∧ ∀ c ∈ cs, c = '0' ∨ c = '1' := by
  simp [valid, isBinary]

@[simp] theorem seqOf_length {n : Nat} (w : BitVec n) : (seqOf w).length = n := by simp [seqOf]

/-- A sequence's word fits as many bits as the sequence has elements. -/
theorem wordOf_lt (cs : List Char) : wordOf cs < 2 ^ cs.length := by
  induction cs with
  | nil => simp [wordOf]
  | cons c cs ih =>
    simp only [wordOf, List.length_cons, pow_succ, bitOf]
    split <;> omega

/-- What `seqOf` gives is binary, so it is valid for its width. -/
theorem valid_seqOf {n : Nat} (w : BitVec n) : valid (seqOf w) n = true := by
  rw [valid_iff]
  refine ⟨seqOf_length w, fun c hc => ?_⟩
  obtain ⟨i, -, rfl⟩ := List.mem_map.1 hc
  cases w.getLsbD i <;> simp [charOf]

/-- A stated word fits its width. -/
theorem statedWord_lt {k n : Nat} {v : HostValue} (h : statedWord k v = some n) : n < 2 ^ k := by
  cases v with
  | word m =>
    simp only [statedWord] at h
    split at h
    · cases h
      assumption
    · cases h
  | chars cs =>
    simp only [statedWord] at h
    split at h
    · rename_i hv
      cases h
      have := wordOf_lt cs
      rwa [((valid_iff cs k).1 hv).1] at this
    · cases h
  | invalidInput => cases h
  | other o => cases h

theorem statedWord_word {k n : Nat} (h : n < 2 ^ k) : statedWord k (.word n) = some n := if_pos h

theorem statedWord_chars {k : Nat} {cs : List Char} (h : valid cs k = true) : statedWord k (.chars cs) = some (wordOf cs) :=
  if_pos h

/-- The spec lemma of `portWord`: the stated word, or the free value. -/
theorem portWord_stated {k n : Nat} {v : HostValue} (free : BitVec k) (h : statedWord k v = some n) :
    portWord v free = BitVec.ofNat k n := by
  simp [portWord, h]

theorem portWord_free {k : Nat} {v : HostValue} (free : BitVec k) (h : statedWord k v = none) : portWord v free = free := by
  simp [portWord, h]

end Sys2Proof.Machine
end

