-- ==== Sys2Proof/Laws/Wires.lean ====
section
/-! SUPPORT. Wires and values: `bitsOfValue` and `valueOfBits` undo each other on a port's width. -/

namespace Sys2Proof

@[simp] theorem bitsOfValue_length (k n : Nat) : (bitsOfValue k n).length = k := by
  induction k generalizing n with
  | zero => rfl
  | succ k ih => simp [bitsOfValue, ih]

theorem valueOfBits_lt (bs : List Bool) : valueOfBits bs < 2 ^ bs.length := by
  induction bs with
  | nil => simp [valueOfBits]
  | cons b bs ih =>
    simp only [valueOfBits, List.length_cons, pow_succ]
    have := Bool.toNat_le b
    omega

/-- Writing a value on `k` wires and reading them gives its low `k` bits. -/
theorem valueOfBits_bitsOfValue (k n : Nat) : valueOfBits (bitsOfValue k n) = n % 2 ^ k := by
  induction k generalizing n with
  | zero => simp [bitsOfValue, valueOfBits, Nat.mod_one]
  | succ k ih =>
    simp only [bitsOfValue, valueOfBits, ih, pow_succ, Nat.testBit_zero]
    have h1 : n % (2 ^ k * 2) = n % 2 + 2 * (n / 2 % 2 ^ k) := by
      rw [Nat.mul_comm, Nat.mod_mul]
    rcases Nat.mod_two_eq_zero_or_one n with h | h <;> simp [h1, h]

/-- Driving a port word on its wires and reading them gives the word. -/
theorem ofNat_valueOfBits {k : Nat} (w : BitVec k) : BitVec.ofNat k (valueOfBits (bitsOfValue k w.toNat)) = w := by
  rw [valueOfBits_bitsOfValue, Nat.mod_eq_of_lt w.isLt, BitVec.ofNat_toNat, BitVec.setWidth_eq]

/-- Reading wires and writing the value back gives the same wires. -/
theorem bitsOfValue_valueOfBits (bs : List Bool) : bitsOfValue bs.length (valueOfBits bs) = bs := by
  induction bs with
  | nil => rfl
  | cons b bs ih =>
    have h2 : (b.toNat + 2 * valueOfBits bs) / 2 = valueOfBits bs := by
      cases b
      · simp
      · simp; omega
    have h1 : (b.toNat + 2 * valueOfBits bs).testBit 0 = b := by
      cases b <;> simp [Nat.testBit_zero]
    simp [bitsOfValue, valueOfBits, h1, h2, ih]

/-- The one spec lemma of `decodeWires`. -/
theorem decodeWires_ok {row : Row} {k : Nat} {bs : List Bool} {mk : BitVec k → Instr} {i : Instr} :
    decodeWires row k bs mk = .ok i ↔ bs.length = k ∧ i = mk (BitVec.ofNat k (valueOfBits bs)) := by
  unfold decodeWires
  split <;> simp_all [eq_comm]

end Sys2Proof
end

