-- ==== Sys2Proof/Laws/PerInstr.lean ====
section
/-! SUPPORT. Statements made for every instruction, one lemma per constructor. -/

namespace Sys2Proof.Laws.EncodesAsItsRow

/-- An instruction is encoded under its own row of the opcode table, and a port operation on exactly as many wires as that
row's port has (R46, R49, R51). -/
def Statement (i : Instr) : Prop :=
  (encode i).row = i.row ∧ ∀ bs, (encode i).input = .bits bs → i.row.width = some bs.length

theorem encodePort (d : W4) : Statement (.encodePort d) :=
  ⟨rfl, fun bs h => by cases h; simp [Instr.row, Row.width]⟩

theorem syndromePort (c : W7) : Statement (.syndromePort c) :=
  ⟨rfl, fun bs h => by cases h; simp [Instr.row, Row.width]⟩

theorem decodePort (c : W7) : Statement (.decodePort c) :=
  ⟨rfl, fun bs h => by cases h; simp [Instr.row, Row.width]⟩

theorem encodeCall (a : HostValue) : Statement (.encodeCall a) :=
  ⟨rfl, fun bs h => by cases h⟩

theorem decodeCall (a : HostValue) : Statement (.decodeCall a) :=
  ⟨rfl, fun bs h => by cases h⟩

end Sys2Proof.Laws.EncodesAsItsRow
end

