-- ==== Sys2Proof/Laws/Step.lean ====
section
/-! SUPPORT. Everything a host action and a step can do, said once. -/

namespace Sys2Proof.Machine

theorem runCode_next {code : Code} {s t : State} (h : runCode code s = .next t) :
    ∃ i, decode code = .ok i ∧ exec i s = .next t := by
  unfold runCode at h
  split at h
  · cases h
  · exact ⟨_, ‹_›, h⟩

theorem bindAfter_next {x : Var} {o : Host.Outcome State Fault Refusal} {t : State} (h : bindAfter x o = .next t) :
    ∃ u, o = .next u ∧ t = u.bindResult x := by
  cases o with
  | next u => cases h; exact ⟨u, rfl, rfl⟩
  | fault f => cases h
  | refused r => cases h

theorem operandValue_lit (l : Literal) (vars : List (Var × HostValue)) : operandValue (.lit l) vars = .ok l.value := rfl

theorem operandValue_var {x : Var} {v : HostValue} {vars : List (Var × HostValue)} :
    operandValue (.var x) vars = .ok v ↔ lookup x vars = some v := by
  cases h : lookup x vars <;> simp [operandValue, h]

/-- The inversion lemma of `runAction`. -/
theorem runAction_next_cases {a : HostAction} {s t : State} (h : runAction a s = .next t) :
    (∃ code i, a = .issue code ∧ decode code = .ok i ∧ exec i s = .next t) ∨
    (∃ x row src v i u, a = .bindOp x row src ∧ operandValue src s.vars = .ok v ∧
      decode (codeOfStep row v s.draws) = .ok i ∧ exec i (s.countDraw (stepDraws row v)) = .next u ∧ t = u.bindResult x) ∨
    (∃ x l, a = .bindLit x l ∧ t = s.bindVar x l.value) ∨
    (∃ x src mask v, a = .bindXor x src mask ∧ operandValue (.var src) s.vars = .ok v ∧
      t = (s.countDraw ((statedWord 7 v).isNone || (statedWord 7 mask.value).isNone)).bindVar x
        (.word (channelWord v mask.value s.draws).toNat)) ∨
    (∃ ds, a = .drive ds ∧ (ds.map Prod.fst).Nodup ∧ s.driveAll ds = .ok t) ∨
    (∃ x p b, a = .read x p ∧ s.blockAt p = .ok b ∧ t = s.bindVar x (.word b.output)) ∨
    (∃ b, a = .attach b ∧ t = { s with further := s.further ++ [b] }) ∨
    (∃ x p w n old u b, a = .sample x p w n ∧ s.blockAt p = .ok old ∧ s.driveAt p w = .ok u ∧ u.blockAt p = .ok b ∧
      t = u.sampleAt x old.input b n) := by
  cases a with
  | issue code =>
    obtain ⟨i, hi, he⟩ := runCode_next h
    exact .inl ⟨code, i, rfl, hi, he⟩
  | bindLit x l => cases h; exact .inr (.inr (.inl ⟨x, l, rfl, rfl⟩))
  | bindOp x row src =>
    simp only [runAction, runBindOp] at h
    split at h
    · cases h
    · rename_i v hv
      obtain ⟨u, hu, rfl⟩ := bindAfter_next h
      obtain ⟨i, hi, he⟩ := runCode_next hu
      exact .inr (.inl ⟨x, row, src, v, i, u, rfl, hv, hi, he, rfl⟩)
  | bindXor x src mask =>
    simp only [runAction, runBindXor] at h
    split at h
    · cases h
    · rename_i v hv
      cases h
      exact .inr (.inr (.inr (.inl ⟨x, src, mask, v, rfl, hv, rfl⟩)))
  | drive ds =>
    simp only [runAction, runDrive] at h
    split at h
    · split at h
      · cases h
        exact .inr (.inr (.inr (.inr (.inl ⟨ds, rfl, ‹_›, ‹_›⟩))))
      · cases h
    · cases h
  | read x p =>
    simp only [runAction, runRead, State.outputAt] at h
    cases hb : s.blockAt p with
    | error r => simp [hb] at h
    | ok b =>
      simp only [hb] at h
      cases h
      exact .inr (.inr (.inr (.inr (.inr (.inl ⟨x, p, b, rfl, hb, rfl⟩)))))
  | attach b => cases h; exact .inr (.inr (.inr (.inr (.inr (.inr (.inl ⟨b, rfl, rfl⟩))))))
  | sample x p w n =>
    simp only [runAction, runSample] at h
    split at h
    · cases h
    · rename_i old hold
      split at h
      · cases h
      · rename_i u hu
        split at h
        · cases h
        · rename_i b hb
          cases h
          exact .inr (.inr (.inr (.inr (.inr (.inr (.inr ⟨x, p, w, n, old, u, b, rfl, hold, hu, hb, rfl⟩))))))

/-- The instruction a script step performs: its row's, on the operand's port word or on the value as argument. -/
theorem decode_codeOfStep (row : Row) (v : HostValue) (n : Nat) :
    decode (codeOfStep row v n) = .ok (match row with
      | .ENCODE => .encodePort (portWord v (Config.freeDataIn n v))
      | .SYNDROME => .syndromePort (portWord v (Config.freeSynCodeIn n v))
      | .DECODE => .decodePort (portWord v (Config.freeDecCodeIn n v))
      | .encode => .encodeCall v
      | .decode => .decodeCall v) := by
  cases row with
  | encode => rfl
  | decode => rfl
  | ENCODE => simp [codeOfStep, decode, decodeWires, ofNat_valueOfBits]
  | SYNDROME => simp [codeOfStep, decode, decodeWires, ofNat_valueOfBits]
  | DECODE => simp [codeOfStep, decode, decodeWires, ofNat_valueOfBits]

theorem step_idle {s : State} (h : s.script = []) : step s = .next s := by
  unfold step
  rw [h]

theorem step_action {s : State} {a : HostAction} {rest : List HostAction} (h : s.script = a :: rest) :
    step s = runAction a { s with script := rest } := by
  unfold step
  rw [h]

/-- The inversion lemma of `step`. -/
theorem step_next_cases {s t : State} (h : step s = .next t) :
    (s.script = [] ∧ t = s) ∨
    ∃ a rest, s.script = a :: rest ∧ runAction a { s with script := rest } = .next t := by
  cases hs : s.script with
  | nil =>
    rw [step_idle hs] at h
    cases h
    exact .inl ⟨rfl, rfl⟩
  | cons a rest => exact .inr ⟨a, rest, rfl, by rw [← step_action hs]; exact h⟩

end Sys2Proof.Machine
end

