-- ==== Sys2Proof/Laws/Vars.lean ====
section
/-! SUPPORT. The host variables: reading after binding, and their canonical form. -/

namespace Sys2Proof.Machine

theorem lookup_insertVar_same (x : Var) (v : HostValue) (vs : List (Var × HostValue)) :
    lookup x (insertVar x v vs) = some v := by
  induction vs with
  | nil => simp [insertVar, lookup]
  | cons yw rest ih =>
    obtain ⟨y, w⟩ := yw
    simp only [insertVar]
    split
    · simp [lookup]
    · split
      · simp [lookup]
      · rename_i h
        simp [lookup, h, ih]

theorem lookup_insertVar_other {x z : Var} (v : HostValue) (vs : List (Var × HostValue)) (h : z ≠ x) :
    lookup z (insertVar x v vs) = lookup z vs := by
  induction vs with
  | nil => simp [insertVar, lookup, h]
  | cons yw rest ih =>
    obtain ⟨y, w⟩ := yw
    simp only [insertVar]
    split
    · simp [lookup, h]
    · split
      · rename_i hxy
        subst hxy
        simp [lookup, h]
      · simp [lookup, ih]

/-- A variable bound after an insertion was the inserted one or was bound before. -/
theorem mem_insertVar {x : Var} {v : HostValue} {vs : List (Var × HostValue)} {p : Var × HostValue}
    (h : p ∈ insertVar x v vs) : p = (x, v) ∨ p ∈ vs := by
  induction vs with
  | nil => simpa [insertVar] using h
  | cons yw rest ih =>
    obtain ⟨y, w⟩ := yw
    simp only [insertVar] at h
    split at h
    · simpa using h
    · split at h
      · rcases List.mem_cons.1 h with h | h
        · exact .inl h
        · exact .inr (List.mem_cons_of_mem _ h)
      · rcases List.mem_cons.1 h with h | h
        · exact .inr (by simp [h])
        · exact (ih h).imp_right (List.mem_cons_of_mem _)

/-- Binding keeps the variables strictly rising. -/
theorem insertVar_rising (x : Var) (v : HostValue) {vs : List (Var × HostValue)} (h : varsRising vs) :
    varsRising (insertVar x v vs) := by
  induction vs with
  | nil => simp [insertVar, varsRising]
  | cons yw rest ih =>
    obtain ⟨y, w⟩ := yw
    simp only [varsRising, List.map_cons, List.pairwise_cons] at h ih ⊢
    simp only [insertVar]
    split
    · rename_i hxy
      simp only [List.map_cons, List.pairwise_cons]
      refine ⟨?_, h⟩
      intro z hz
      rcases List.mem_cons.1 hz with rfl | hz
      · exact hxy
      · exact lt_trans hxy (h.1 z hz)
    · rename_i hxy
      split
      · rename_i hxy'
        subst hxy'
        simpa using h
      · rename_i hne
        simp only [List.map_cons, List.pairwise_cons]
        refine ⟨?_, ih h.2⟩
        intro z hz
        obtain ⟨⟨z', u⟩, hp, rfl⟩ := List.mem_map.1 hz
        rcases mem_insertVar hp with hp | hp
        · cases hp
          exact lt_of_le_of_ne (Nat.le_of_not_lt hxy) (fun e => hne e.symm)
        · exact h.1 z' (List.mem_map.2 ⟨_, hp, rfl⟩)

end Sys2Proof.Machine
end

