-- ==== Sys2Proof/Tests/Slice0.lean ====
section
/-! SUPPORT. The model's own tests.  Every expected value is the spec's: the file or table it stands in is named beside it. -/

namespace Sys2Proof.Tests

open Sys2Proof.Machine

/-! ### A small state -/

/-- A host with a word and a string bound, one further decoder, and the given actions pending. -/
def hostWith (script : List HostAction) : State :=
  { State.reset with
    vars := [(0, .word 0xD), (1, .chars ['1', '0', '1', '1']), (2, .chars ['1', '0', 'a'])]
    further := [.decoder 0x27]
    script := script }

/-- A state with other inputs driven, to see what an operation leaves alone. -/
def busy : State := { hostWith [] with dataIn := 0x5, synCodeIn := 0x01, decCodeIn := 0x40 }

def shown {α : Type} (e : Except Refusal α) : Option α := e.toOption

/-! ### Well-formedness: each check refuses an ill-formed term -/

theorem test_wf_encode_refuses_a_word : (Instr.encodeCall (.word 0xD)).wf = false := by decide
theorem test_wf_decode_refuses_integers : (Instr.decodeCall (.other (.integers [1, 0]))).wf = false := by decide
theorem test_wf_encode_refuses_a_truth_value : (Instr.encodeCall (.other (.boolean true))).wf = false := by decide
theorem test_wf_decode_refuses_invalidInput : (Instr.decodeCall .invalidInput).wf = false := by decide
theorem test_wf_takes_an_invalid_string : (Instr.encodeCall (.chars ['1', '0', '1'])).wf = true := by decide
theorem test_wf_literal_refuses_eight_bits : (HostAction.bindLit 0 (.word 128)).wf = false := by decide
theorem test_wf_xor_refuses_eight_bits : (HostAction.bindXor 0 1 (.word 128)).wf = false := by decide
theorem test_wf_xor_refuses_a_short_string : (HostAction.bindXor 0 1 (.string ['1'])).wf = false := by decide
theorem test_wf_operand_refuses_eight_bits : (HostAction.bindOp 0 .DECODE (.lit (.word 128))).wf = false := by decide
theorem test_wf_drive_refuses_one_port_twice : (HostAction.drive [(.encoder, 1), (.encoder, 2)]).wf = false := by decide
theorem test_wf_issue_refuses_a_bad_code : (HostAction.issue ⟨.ENCODE, .bits [true]⟩).wf = false := by decide

/-! ### Decoding: words written out bit by bit (95_test_vectors.md L3; index 0 first) -/

theorem test_decode_ENCODE : (decode ⟨.ENCODE, .bits [true, false, false, true]⟩).toOption =
    some (.encodePort 0b1001) := by decide                                     -- L3-P2 step 2
theorem test_decode_SYNDROME : (decode ⟨.SYNDROME, .bits [false, false, true, true, true, false, true]⟩).toOption =
    some (.syndromePort 0b1011100) := by decide                                -- L3-P2 step 4
theorem test_decode_DECODE : (decode ⟨.DECODE, .bits [true, true, false, false, false, false, false]⟩).toOption =
    some (.decodePort 0b0000011) := by decide                                  -- L3-P3 step 5
theorem test_decode_encode : (decode ⟨.encode, .argument (.chars ['1', '0', '1'])⟩).toOption =
    some (.encodeCall (.chars ['1', '0', '1'])) := by decide                   -- L3-P5 step 4
theorem test_decode_decode : (decode ⟨.decode, .argument (.chars ['0', '1', '1', '0', '0', '1', '1'])⟩).toOption =
    some (.decodeCall (.chars ['0', '1', '1', '0', '0', '1', '1'])) := by decide  -- L3-P5 step 2
theorem test_decode_refuses_seven_wires_at_the_encoder :
    (decode ⟨.ENCODE, .bits [true, true, true, true, true, true, true]⟩).toOption = none := by decide
theorem test_decode_refuses_an_argument_at_a_port :
    (decode ⟨.DECODE, .argument (.chars ['0', '1', '1', '0', '0', '1', '1'])⟩).toOption = none := by decide
theorem test_decode_refuses_wires_at_a_call : (decode ⟨.encode, .bits [true]⟩).toOption = none := by decide
theorem test_table_word_ENCODE : decodeTableWord 8 0b1101 = some (.encodePort 0xD) := by decide
theorem test_table_word_SYNDROME : decodeTableWord 8 0x4F = some (.syndromePort 0x4F) := by decide
theorem test_table_word_DECODE : decodeTableWord 16 0x34F = some (.decodePort 0x4F) := by decide
theorem test_table_word_encode : decodeTableWord 48 0x313130310400 =
    some (.encodeCall (.chars ['1', '0', '1', '1'])) := by decide
theorem test_table_word_refused : decodeTableWord 16 0x11D = none := by decide

/-! ### One step of each operation -/

theorem test_ENCODE : resultOf (exec (.encodePort 0xD) busy) = some (.word 0x66) := by decide          -- L1-1
theorem test_ENCODE_drives_data_in :
    (nextOf (exec (.encodePort 0xA) busy)).map State.codeOut = some 0x52 := by decide                  -- L2-ENC
theorem test_SYNDROME : resultOf (exec (.syndromePort 0x4F) busy) = some (.word 3) := by decide        -- R70
theorem test_SYNDROME_p4_alone : resultOf (exec (.syndromePort 0x77) busy) = some (.word 4) := by decide  -- L3-P4
theorem test_DECODE : resultOf (exec (.decodePort 0x27) busy) = some (.word 0x1) := by decide          -- L1-3
theorem test_DECODE_keeps_syndrome_calculator :
    (nextOf (exec (.decodePort 0x0C) busy)).map (fun t => (t.dataOut, t.syndromeOut)) = some (0x9, 1) := by decide  -- L2-DEC
theorem test_encode : resultOf (exec (.encodeCall (.chars ['1', '0', '1', '1'])) busy) =
    some (.chars ['0', '1', '1', '0', '0', '1', '1']) := by decide                                     -- L1-1
theorem test_encode_invalid_changes_nothing_else :
    nextOf (exec (.encodeCall (.chars ['1', '0', 'a'])) busy) =
      some { busy with result := some .invalidInput } := by decide                                     -- L2-HOST
theorem test_decode_two_bit_error : resultOf (exec (.decodeCall (.chars ['1', '1', '0', '0', '0', '0', '0'])) busy) =
    some (.chars ['1', '0', '0', '0']) := by decide                                                    -- L2-HOST
theorem test_decode_newline : resultOf (exec (.decodeCall (.chars ['0', '1', '1', '0', '0', '1', '\n'])) busy) =
    some .invalidInput := by decide                                                                    -- L2-HOST
theorem test_encode_refuses_an_integer :
    refusalOf (exec (.encodeCall (.other (.integer 1011))) busy) = some .argumentNotASequence := by decide  -- R95

/-! ### One step of the host -/

theorem test_step_script_ENCODE :
    (nextOf (step (hostWith [.bindOp 5 .ENCODE (.var 0)]))).map (fun t => lookup 5 t.vars) = some (some (.word 0x66)) := by decide  -- L3-P1
theorem test_step_script_error_is_bound :
    (nextOf (step (hostWith [.bindOp 5 .encode (.var 2)]))).map (fun t => lookup 5 t.vars) = some (some .invalidInput) := by decide  -- R51
theorem test_step_channel :
    (nextOf (step (hostWith [.bindXor 5 0 (.word 0x10)]))).map (fun t => lookup 5 t.vars) = some (some (.word 0x1D)) := by decide  -- R51
theorem test_step_literal_argument :
    (nextOf (step (hostWith [.bindOp 5 .encode (.lit (.string ['1', '0', '1', '1']))]))).map (fun t => lookup 5 t.vars) =
      some (some (.chars ['0', '1', '1', '0', '0', '1', '1'])) := by decide                            -- L3-P5 step 1
theorem test_step_literal_argument_error :
    (nextOf (step (hostWith [.bindOp 5 .decode (.lit (.string ['0', '0', '0', '0', '0', '0', '2']))]))).map
      (fun t => lookup 5 t.vars) = some (some .invalidInput) := by decide                              -- L3-P5 step 5
theorem test_step_string_mask :
    (nextOf (step (hostWith [.bindXor 5 0 (.string ['0', '0', '0', '0', '1', '0', '0'])]))).map
      (fun t => lookup 5 t.vars) = some (some (.word 0x1D)) := by decide                               -- R43, R51
theorem test_step_unstated_mask_runs :
    (nextOf (step (hostWith [.bindXor 5 0 (.string ['1'])]))).map (fun t => (t.draws, t.script)) = some (1, []) := by decide
theorem test_step_unbound : refusalOf (step (hostWith [.bindOp 5 .DECODE (.var 9)])) = some (.unboundVariable 9) := by decide
theorem test_step_string_at_a_port :
    (nextOf (step (hostWith [.bindOp 5 .ENCODE (.var 1)]))).map (fun t => (lookup 5 t.vars, t.draws)) =
      some (some (.word 0x66), 0) := by decide                                                         -- R9, L1-1
theorem test_step_unstated_operand_runs :
    (nextOf (step (hostWith [.bindOp 5 .DECODE (.var 2)]))).map (fun t => (t.draws, t.script, t.dataIn)) =
      some (1, [], 0) := by decide
theorem test_step_word_at_a_call :
    refusalOf (step (hostWith [.bindOp 5 .encode (.var 0)])) = some .argumentNotASequence := by decide        -- R95
theorem test_step_together :
    (nextOf (step (hostWith [.drive [(.decoder, 0x4F), (.encoder, 0x9), (.further 0, 0x77)]]))).map
      (fun t => (t.codeOut, t.dataOut, shown (t.outputAt (.further 0)))) = some (0x4C, 0x8, some 0xF) := by decide  -- L2
theorem test_step_twice_at_once :
    refusalOf (step (hostWith [.drive [(.encoder, 1), (.encoder, 2)]])) = some .drivenTwice := by decide
theorem test_step_read_further :
    (nextOf (step (hostWith [.read 5 (.further 0)]))).map (fun t => lookup 5 t.vars) = some (some (.word 1)) := by decide  -- L1-3
theorem test_step_no_such_block :
    refusalOf (step (hostWith [.read 5 (.further 1)])) = some (.noSuchSubBlock 1) := by decide
theorem test_step_too_wide : refusalOf (step (hostWith [.drive [(.encoder, 16)]])) = some (.wordDoesNotFit 16) := by decide
theorem test_step_withFetchWord :
    resultOf (step (State.reset.withFetchWord 8 0b1101)) = some (.word 0x66) := by decide               -- L1-1
theorem test_step_idle_from_reset : nextOf (step State.reset) = some State.reset := by decide
theorem test_second_binding_replaces_the_first :
    insertVar 1 .invalidInput [(0, .word 0), (1, .word 1)] = [(0, .word 0), (1, .invalidInput)] := by decide

/-! ### Witnesses: states and operands that meet the hypotheses of each statement, clause by clause -/

theorem witness_EncodeFollowsItsThreeSteps : [3, 1, 0].Perm [0, 1, 3] := by decide
theorem witness_EncodedWordsHaveSyndromeZeroAndDiffer : ENCODE 0xD = (0x66 : W7) := by decide
theorem witness_SyndromeProperties : (0 : Nat) < 7 ∧ (6 : Nat) < 7 ∧ (0 : Nat) ≠ 6 ∧ (2 : Nat) < 3 ∧ (7 : Nat) < 8 := by decide
theorem witness_DecodeFlipsAndExtracts :
    SYNDROME 0x00 = 0 ∧ SYNDROME 0x01 = 1 ∧ SYNDROME 0x02 = 2 ∧ SYNDROME 0x04 = 3 ∧ SYNDROME 0x08 = 4 ∧
      SYNDROME 0x10 = 5 ∧ SYNDROME 0x20 = 6 ∧ SYNDROME 0x40 = 7 := by decide
theorem witness_ValidCodewordsWeightsAndDistance : ENCODE 0x0 ≠ ENCODE 0x1 ∧ weight (ENCODE 0x0 ^^^ ENCODE 0x1) = 3 := by decide
theorem witness_EverySingleBitErrorIsCorrected : (0 : Nat) < 7 ∧ (6 : Nat) < 7 := by decide
theorem witness_PayloadComesBackIffAtMostOneBitFlipped :
    weight 0x00 ≤ 1 ∧ weight 0x40 ≤ 1 ∧ weight 0x41 = 2 ∧ weight 0x07 = 3 ∧ ENCODE 0x0 ^^^ 0x07 = ENCODE 0x1 := by decide
theorem witness_ElementOfSequenceIsBitOfWord : ['1', '0', '1', '1'].all isBinary = true := by decide
theorem witness_CallsValidateLengthAndAlphabet :
    valid ['1', '0', '1', '1'] 4 = true ∧ valid [] 4 = false ∧ valid ['0', '1', '1', '0', '0', '1', '1'] 7 = true ∧
      valid [] 7 = false := by decide
theorem witness_EncodeCallReturnsCodewordString :
    valid ['1', '1', '1', '1'] 4 = true ∧ valid ['1', '1', '1'] 4 = false ∧ valid ['1', '1', '1', '1', '1'] 4 = false := by decide
theorem witness_DecodeCallReturnsPayloadString :
    valid ['1', '1', '1', '1', '1', '1', '1'] 7 = true ∧ valid ['1', '1', '1', '1', '1', '1'] 7 = false ∧
      valid ['1', '1', '1', '1', '1', '1', '2'] 7 = false := by decide
theorem witness_ValidCallsDriveTheirSubBlock :
    valid ['0', '0', '0', '0'] 4 = true ∧ valid ['1', '1', '0', '0', '0', '0', '0'] 7 = true := by decide
theorem witness_CallsAreIndependentAndFailedOnesChangeNothing :
    valid ['1', '0', '2', '1'] 4 = false ∧ valid ['0', '1', '1', '0', '0', '1', '1', '0'] 7 = false := by decide
theorem witness_InvalidInputHasExactlyTheseCauses :
    (nextOf (exec (.encodeCall (.chars ['1', '0', '1'])) busy)).isSome = true ∧
      (nextOf (exec (.decodeCall (.chars ['0', '0', '0', '0', '0', '0', '2'])) busy)).isSome = true ∧
      (nextOf (exec (.encodePort 0xF) busy)).isSome = true := by decide
theorem witness_SubBlocksRaiseNoError :
    (Instr.encodePort 0xF).row = .ENCODE ∧ (Instr.syndromePort 0x7F).row = .SYNDROME ∧
      (Instr.decodePort 0x7F).row = .DECODE := by decide
theorem witness_BothCausesGiveOneInvalidInput :
    ['1', '0', 'a'].length ≠ 4 ∧ ['1', '0', 'a'].length ≠ 7 ∧ ∃ c ∈ ['1', '0', 'a'], c ≠ '0' ∧ c ≠ '1' :=
  ⟨by decide, by decide, 'a', by decide⟩
theorem witness_ArgumentsThatAreNoSequenceAreRefused :
    HostValue.isSequence (.word 0) = false ∧ HostValue.isSequence .invalidInput = false ∧
      HostValue.isSequence (.other .noneValue) = false := by decide
theorem witness_EveryWellFormedInstructionCompletes :
    (Instr.decodePort 0x7F).wf = true ∧ (Instr.decodeCall (.chars [])).wf = true := by decide
theorem witness_StringsSurviveAnySingleError : valid ['0', '1', '0', '1'] 4 = true ∧ (6 : Nat) < 7 := by decide
theorem witness_InstructionsTouchOnlyTheirOwnSubBlock :
    (nextOf (exec (.encodeCall (.chars ['0', '1', '0', '1'])) busy)).isSome = true ∧ Place.decoder ≠ Place.encoder ∧
      Place.further 0 ≠ (Instr.encodePort 0).row.place := by decide
theorem witness_RepeatingAnOperationChangesNothing :
    ∃ t, exec (.decodePort 0x33) busy = .next t ∧ t ≠ busy := ⟨_, rfl, by decide⟩
theorem witness_OrderOfOperationsDoesNotMatter :
    (∃ t u, exec (.encodePort 0x3) busy = .next t ∧ exec (.decodePort 0x3) t = .next u) ∧
      (Instr.encodePort 0x3).row.place ≠ (Instr.decodePort 0x3).row.place := ⟨⟨_, _, rfl, rfl⟩, by decide⟩
theorem witness_DrivingOnePortLeavesTheOthers :
    (∃ t, busy.driveAt (.further 0) 127 = .ok t) ∧ (∃ b, busy.blockAt (.further 0) = .ok b) ∧
      (∃ t, busy.driveAt .encoder 15 = .ok t) ∧ Place.decoder ≠ Place.further 0 := ⟨⟨_, rfl⟩, ⟨_, rfl⟩, ⟨_, rfl⟩, by decide⟩
theorem witness_PortsDrivenTogetherInAnyOrder :
    [(Place.encoder, 3), (Place.further 0, 9)].Perm [(Place.further 0, 9), (Place.encoder, 3)] ∧
      ([(Place.encoder, 3), (Place.further 0, 9)].map Prod.fst).Nodup ∧
      ∃ t, busy.driveAll [(Place.encoder, 3), (Place.further 0, 9)] = .ok t := ⟨by decide, by decide, _, rfl⟩
theorem witness_EveryInputPortTakesEveryFittingWord :
    shown (busy.blockAt (.further 0)) = some (.decoder 0x27) ∧ 127 < 2 ^ (SubBlock.decoder 0x27).width ∧
      2 ^ (SubBlock.decoder 0x27).width ≤ 128 ∧ shown (busy.blockAt .encoder) = some (.encoder 0x5) ∧
      15 < 2 ^ (SubBlock.encoder 0x5).width ∧ 2 ^ (SubBlock.encoder 0x5).width ≤ 16 := by decide
theorem witness_DriveStepDrivesEveryListedPort :
    (hostWith [.drive [(.encoder, 15), (.further 0, 127)]]).script = [.drive [(.encoder, 15), (.further 0, 127)]] ∧
      ([(Place.encoder, 15), (Place.further 0, 127)].map Prod.fst).Nodup ∧
      (∀ d ∈ [(Place.encoder, 15), (Place.further 0, 127)], ∃ b,
        (hostWith [.drive [(.encoder, 15), (.further 0, 127)]]).blockAt d.1 = .ok b ∧ d.2 < 2 ^ b.width) ∧
      ¬([(Place.encoder, 1), (Place.encoder, 2)].map Prod.fst).Nodup :=
  ⟨by decide, by decide, by
    intro d hd
    rcases List.mem_cons.1 hd with rfl | hd
    · exact ⟨_, rfl, by decide⟩
    · rcases List.mem_singleton.1 hd with rfl
      exact ⟨_, rfl, by decide⟩, by decide⟩
theorem witness_AttachedSubBlockFollowsAtOnce : Place.further 0 ≠ .further busy.further.length := by decide
theorem witness_SampleSettlesAfterTheDelay :
    (∃ old u b, busy.blockAt .encoder = .ok old ∧ busy.driveAt .encoder 0xF = .ok u ∧ u.blockAt .encoder = .ok b ∧ b.delay ≤ (Config.T_PD_ENC : Nat)) ∧
      (∃ old u b, busy.blockAt (.further 0) = .ok old ∧ busy.driveAt (.further 0) 0x7F = .ok u ∧ u.blockAt (.further 0) = .ok b ∧ 0 < b.delay) :=
  ⟨⟨_, _, _, rfl, rfl, rfl, le_rfl⟩, ⟨_, _, _, rfl, rfl, rfl, Config.T_PD_DEC.pos⟩⟩
theorem witness_EncodeOfDecodeIsTheCode :
    (decode ⟨.SYNDROME, .bits [true, true, true, true, true, true, true]⟩).toOption.isSome = true := by decide
theorem witness_StepPerformsTheDecodedOperation :
    (hostWith [.issue ⟨.ENCODE, .bits [true, true, true, true]⟩]).script =
        [.issue ⟨.ENCODE, .bits [true, true, true, true]⟩] ∧
      (decode ⟨.ENCODE, .bits [true, true, true, true]⟩).toOption = some (.encodePort 0xF) ∧
      (decode ⟨.ENCODE, .bits [true]⟩).toOption = none ∧ (decodeTableWord 16 0x37F).isSome = true ∧
      busy.script = [] := by decide
theorem witness_ScriptPortStepsBindTheRuleValue :
    (operandValue (.var 0) (hostWith [.bindOp 5 .ENCODE (.var 0)]).vars).toOption = some (.word 13) ∧ (13 : Nat) < 16 ∧
      (operandValue (.lit (.word 127)) []).toOption = some (.word 127) ∧ (127 : Nat) < 128 ∧
      (hostWith [.bindOp 5 .DECODE (.var 0)]).script = [.bindOp 5 .DECODE (.var 0)] := by decide
theorem witness_ScriptPortStepsRunOnEveryOperand :
    (operandValue (.var 2) (hostWith [.bindOp 5 .ENCODE (.var 2)]).vars).toOption = some (.chars ['1', '0', 'a']) ∧
      statedWord 4 (.chars ['1', '0', 'a']) = none ∧ statedWord 7 (.word 128) = none ∧ statedWord 7 .invalidInput = none ∧
      valid ['1', '0', '1', '1'] 4 = true ∧ valid ['1', '1', '1', '1', '1', '1', '1'] 7 = true ∧
      (15 : Nat) < 16 ∧ (127 : Nat) < 128 ∧ (hostWith [.bindOp 5 .SYNDROME (.lit (.word 200))]).script =
        [.bindOp 5 .SYNDROME (.lit (.word 200))] := by decide
theorem witness_ChannelStepsRunOnEveryOperand :
    lookup 2 (hostWith [.bindXor 5 2 (.word 200)]).vars = some (.chars ['1', '0', 'a']) ∧
      (hostWith [.bindXor 5 2 (.word 200)]).script = [.bindXor 5 2 (.word 200)] ∧
      statedWord 7 (Literal.word 200).value = none ∧ statedWord 7 (Literal.word 127).value = some 127 ∧
      valid ['1', '1', '1', '1', '1', '1', '1'] 7 = true := by decide
theorem witness_ScriptCallStepsBindTheResult :
    (operandValue (.var 1) (hostWith [.bindOp 1 .encode (.var 1)]).vars).toOption = some (.chars ['1', '0', '1', '1']) ∧
      (operandValue (.lit (.string [])) []).toOption = some (.chars []) ∧
      (hostWith [.bindOp 1 .decode (.var 1)]).script = [.bindOp 1 .decode (.var 1)] := by decide
theorem witness_ScriptLiteralAndChannelSteps :
    (hostWith [.bindLit 7 (.word 127)]).script = [.bindLit 7 (.word 127)] ∧
      (hostWith [.bindXor 7 0 (.word 127)]).script = [.bindXor 7 0 (.word 127)] ∧
      (hostWith [.bindXor 7 0 (.string (seqOf 127#7))]).script = [.bindXor 7 0 (.string (seqOf 127#7))] ∧
      lookup 0 (hostWith []).vars = some (.word 13) ∧ (13 : Nat) < 128 ∧ (127 : Nat) < 128 := by decide
theorem witness_ReadingAPortBindsItsOutput :
    (hostWith [.read 3 .encoder]).script = [.read 3 .encoder] ∧ (hostWith [.read 3 .decoder]).script = [.read 3 .decoder] ∧
      (hostWith [.read 3 .syndromeCalculator]).script = [.read 3 .syndromeCalculator] ∧
      (hostWith [.read 3 (.further 0)]).script = [.read 3 (.further 0)] ∧
      shown ((hostWith [.read 3 (.further 0)]).outputAt (.further 0)) = some 1 := by decide
theorem witness_EveryStepKeepsTheInvariant :
    (hostWith [.bindOp 5 .ENCODE (.var 0), .attach (.encoder 3)]).Inv ∧
      (nextOf (step (hostWith [.bindOp 5 .ENCODE (.var 0), .attach (.encoder 3)]))).isSome = true := by decide

end Sys2Proof.Tests
end

section
/-! PROOFS. The closed forms of R61, R71 and R80 against the pseudocode of R60, R70 and R80. -/

namespace Sys2Proof.Machine

/-! ### Covering sets and bit writes -/

@[simp] theorem coveringSet_zero : coveringSet 0 = [0, 2, 4, 6] := by decide
@[simp] theorem coveringSet_one : coveringSet 1 = [1, 2, 5, 6] := by decide
@[simp] theorem coveringSet_three : coveringSet 3 = [3, 4, 5, 6] := by decide

/-- What a bit reads after a bit is written: the written one, or the old one. -/
theorem getLsbD_setBit (c : W7) (i j : Nat) (b : Bool) :
    (setBit c i b).getLsbD j = if i = j ∧ j < 7 then b else c.getLsbD j := by
  by_cases hj : j < 7
  · by_cases hij : i = j
    · subst hij
      cases b <;> simp [setBit, hj]
    · cases b <;> simp [setBit, hj, hij] <;> omega
  · simp [hj, BitVec.getLsbD_of_ge _ j (Nat.not_lt.1 hj)]

/-! ### ENCODE (R60, R61) -/

/-- R61's concatenation read bit by bit, index 0 first. -/
theorem getLsbD_closedCode (d : W4) {i : Nat} (hi : i < 7) : (closedCode d).getLsbD i =
    [d.getLsbD 0 ^^ d.getLsbD 1 ^^ d.getLsbD 3, d.getLsbD 0 ^^ d.getLsbD 2 ^^ d.getLsbD 3, d.getLsbD 0,
      d.getLsbD 1 ^^ d.getLsbD 2 ^^ d.getLsbD 3, d.getLsbD 1, d.getLsbD 2, d.getLsbD 3].getD i false := by
  simp only [closedCode, BitVec.getLsbD_append]
  interval_cases i <;> simp

/-- R61: the three steps of R60 give the closed form, bit by bit. -/
theorem ENCODE_eq_closedCode (d : W4) : ENCODE d = closedCode d := by
  apply BitVec.eq_of_getLsbD_eq
  intro i hi
  rw [getLsbD_closedCode d hi]
  interval_cases i <;>
    simp [ENCODE, encodeInOrder, parityIndices, fillParity, xorOver, place, getLsbD_setBit, -BitVec.getLsbD_eq_getElem]

/-! ### SYNDROME (R70, R71) -/

/-- R70: the recomputed parity against the received bit is the XOR of the whole covering set. -/
theorem mismatch_zero (c : W7) : mismatch c 0 = closedS1 c := by
  simp [mismatch, recomputed, xorOver, closedS1, Bool.xor_comm]

theorem mismatch_one (c : W7) : mismatch c 1 = closedS2 c := by
  simp [mismatch, recomputed, xorOver, closedS2, Bool.xor_comm]

theorem mismatch_three (c : W7) : mismatch c 3 = closedS4 c := by
  simp [mismatch, recomputed, xorOver, closedS4, Bool.xor_comm]

/-- R71: the integer sum of the accumulator is the concatenation of the three checks. -/
theorem SYNDROME_eq_closedSyndrome (c : W7) : SYNDROME c = closedSyndrome c := by
  simp only [SYNDROME, errorPos, parityIndices, List.foldl, mismatch_zero, mismatch_one, mismatch_three, closedSyndrome]
  cases closedS1 c <;> cases closedS2 c <;> cases closedS4 c <;> rfl

/-! ### DECODE (R80) -/

/-- R80: the mask flips exactly the bit at index `syn - 1`. -/
theorem getLsbD_flipMask : ∀ (syn : W3), ∀ i < 7, (flipMask syn).getLsbD i = (syn == BitVec.ofNat 3 (i + 1)) := by
  decide

theorem getLsbD_correct (c : W7) {i : Nat} (hi : i < 7) :
    (correct c).getLsbD i = (c.getLsbD i ^^ (SYNDROME c == BitVec.ofNat 3 (i + 1))) := by
  rw [correct, BitVec.getLsbD_xor, getLsbD_flipMask _ i hi]

/-- R80: correcting and extracting is the closed form. -/
theorem DECODE_eq_closedData (c : W7) : DECODE c = closedData c := by
  simp [DECODE, extract, closedData, getLsbD_correct, SYNDROME_eq_closedSyndrome, -BitVec.getLsbD_eq_getElem]

end Sys2Proof.Machine

namespace Sys2Proof

open Machine

/-- Settles O35: each output of the closed forms is the rule's value (R12). -/
theorem closedFormsConform : Obligations.ClosedFormsConform :=
  ⟨fun d => (ENCODE_eq_closedCode d).symm, fun c => (SYNDROME_eq_closedSyndrome c).symm,
    fun c => (DECODE_eq_closedData c).symm⟩

end Sys2Proof
end

section
/-! PROOFS. The invariant: what a step binds is bindable, and everything a step can do keeps `State.Inv`. -/

namespace Sys2Proof.Machine

/-! ### Values a host variable can hold (log 19) -/

/-- A word of a port is one a host variable can hold: no port is wider than 7 wires (R5). -/
theorem bindable_toNat {k : Nat} (w : BitVec k) (hk : k ≤ 7) : (HostValue.word w.toNat).bindable = true := by
  have hpow : 2 ^ k ≤ 2 ^ 7 := Nat.pow_le_pow_right (by decide) hk
  have hw : w.toNat < 128 := lt_of_lt_of_le w.isLt hpow
  simpa [HostValue.bindable] using hw

theorem bindable_output (b : SubBlock) : (HostValue.word b.output).bindable = true := by
  cases b with
  | encoder d => exact bindable_toNat _ (by decide)
  | syndromeCalculator c => exact bindable_toNat _ (by decide)
  | decoder c => exact bindable_toNat _ (by decide)

theorem bindable_unsettled (b : SubBlock) (n old t : Nat) : (HostValue.word (b.unsettled n old t)).bindable = true := by
  cases b with
  | encoder d => exact bindable_toNat _ (by decide)
  | syndromeCalculator c => exact bindable_toNat _ (by decide)
  | decoder c => exact bindable_toNat _ (by decide)

theorem Literal.bindable_value {l : Literal} (h : l.wf = true) : l.value.bindable = true := by
  cases l with
  | word n => exact h
  | string cs => rfl

/-! ### What an operation and a sample leave on the host's side -/

/-- An operation touches neither the variables nor the script, and what it returns is bindable. -/
theorem exec_host_side {i : Instr} {s t : State} (h : exec i s = .next t) :
    t.vars = s.vars ∧ t.script = s.script ∧ ∃ v, t.result = some v ∧ v.bindable = true := by
  rcases exec_next_cases h with ⟨d, v, rfl, rfl | rfl⟩ | ⟨c, rfl⟩ | ⟨c, v, rfl, rfl | rfl⟩ | rfl
  · exact ⟨rfl, rfl, _, rfl, bindable_toNat _ (by decide)⟩
  · exact ⟨rfl, rfl, _, rfl, rfl⟩
  · exact ⟨rfl, rfl, _, rfl, bindable_toNat _ (by decide)⟩
  · exact ⟨rfl, rfl, _, rfl, bindable_toNat _ (by decide)⟩
  · exact ⟨rfl, rfl, _, rfl, rfl⟩
  · exact ⟨rfl, rfl, _, rfl, rfl⟩

/-! ### The invariant under the operations over State -/

/-- The invariant speaks of the variables, the result and the script only. -/
theorem State.Inv.of_host_side_eq {s t : State} (hs : s.Inv) (hvars : t.vars = s.vars) (hresult : t.result = s.result)
    (hscript : t.script = s.script) : t.Inv := by
  rw [State.Inv, hvars, hresult, hscript]
  exact hs

theorem State.Inv.countDraw {s : State} (hs : s.Inv) (drawn : Bool) : (s.countDraw drawn).Inv :=
  hs.of_host_side_eq rfl rfl rfl

/-- Binding a variable to a bindable value. -/
theorem State.Inv.bindVar {s : State} (hs : s.Inv) (x : Var) {v : HostValue} (hv : v.bindable = true) :
    (s.bindVar x v).Inv := by
  obtain ⟨hrising, hvars, hresult, hscript⟩ := hs
  refine ⟨insertVar_rising x v hrising, fun xv hxv => ?_, hresult, hscript⟩
  rcases mem_insertVar hxv with rfl | hold
  · exact hv
  · exact hvars xv hold

/-- Binding a variable to the last result, which the invariant says is bindable. -/
theorem State.Inv.bindResult {s : State} (hs : s.Inv) (x : Var) : (s.bindResult x).Inv := by
  rcases s.bindResult_eq x with heq | ⟨v, hv, heq⟩
  · rwa [heq]
  · have hbindable : v.bindable = true := by
      obtain ⟨-, -, hresult, -⟩ := hs
      simpa [hv] using hresult
    rw [heq]
    exact hs.bindVar x hbindable

/-- Sampling binds an output or a free value of the port's width. -/
theorem State.Inv.sampleAt {s : State} (hs : s.Inv) (x : Var) (old : Nat) (b : SubBlock) (t : Nat) :
    (s.sampleAt x old b t).Inv := by
  unfold State.sampleAt
  split
  · exact hs.bindVar x (bindable_output b)
  · exact (hs.bindVar x (bindable_unsettled b s.draws old t)).of_host_side_eq rfl rfl rfl

/-! ### The invariant along an operation, an action and a step -/

theorem exec_keeps_inv {i : Instr} {s t : State} (hs : s.Inv) (h : exec i s = .next t) : t.Inv := by
  obtain ⟨hrising, hvars, -, hscript⟩ := hs
  obtain ⟨hv, hsc, v, hres, hbindable⟩ := exec_host_side h
  rw [State.Inv, hv, hsc, hres]
  exact ⟨hrising, hvars, by simpa using hbindable, hscript⟩

/-- A well-formed host action keeps the invariant.  Only a literal step needs that it is well formed: every other value that
is bound comes from a port or from a call. -/
theorem runAction_keeps_inv {a : HostAction} {s t : State} (hs : s.Inv) (ha : a.wf = true) (h : runAction a s = .next t) :
    t.Inv := by
  rcases runAction_next_cases h with
    ⟨code, i, rfl, -, hexec⟩ | ⟨x, row, src, v, i, u, rfl, -, -, hexec, rfl⟩ | ⟨x, l, rfl, rfl⟩ |
    ⟨x, src, mask, v, rfl, -, rfl⟩ | ⟨ds, rfl, -, hdrive⟩ | ⟨x, p, b, rfl, -, rfl⟩ | ⟨b, rfl, rfl⟩ |
    ⟨x, p, w, n, old, u, b, rfl, -, hdrive, -, rfl⟩
  · exact exec_keeps_inv hs hexec
  · exact (exec_keeps_inv (hs.countDraw _) hexec).bindResult x
  · exact hs.bindVar x (Literal.bindable_value ha)
  · exact (hs.countDraw _).bindVar x (bindable_toNat _ le_rfl)
  · obtain ⟨hresult, hvars, hscript, -⟩ := driveAll_frame hdrive
    exact hs.of_host_side_eq hvars hresult hscript
  · exact hs.bindVar x (bindable_output b)
  · exact hs.of_host_side_eq rfl rfl rfl
  · obtain ⟨hresult, hvars, hscript, -⟩ := driveAt_frame hdrive
    exact (hs.of_host_side_eq hvars hresult hscript).sampleAt x old.input b n

/-- Taking the first action off the script leaves an invariant state and a well-formed action. -/
theorem State.Inv.uncons {s : State} (hs : s.Inv) {a : HostAction} {rest : List HostAction} (h : s.script = a :: rest) :
    State.Inv { s with script := rest } ∧ a.wf = true := by
  obtain ⟨hrising, hvars, hresult, hscript⟩ := hs
  rw [h] at hscript
  obtain ⟨ha, hrest⟩ := List.forall_mem_cons.1 hscript
  exact ⟨⟨hrising, hvars, hresult, hrest⟩, ha⟩

/-- Settles O48, by what a step can do: nothing, or the first action of the script. -/
theorem everyStepKeepsTheInvariant : Obligations.EveryStepKeepsTheInvariant := by
  intro s t hs hstep
  rcases step_next_cases hstep with ⟨-, rfl⟩ | ⟨a, rest, hscript, hrun⟩
  · exact hs
  · obtain ⟨hrest, ha⟩ := hs.uncons hscript
    exact runAction_keeps_inv hrest ha hrun

end Sys2Proof.Machine
end

section
/-! PROOFS. Sub-blocks by place: what driving one place, or several, does to the sub-block at every place. -/

namespace Sys2Proof.Machine

/-! ### A sub-block's input port (R22, R23, R24) -/

/-- A word that a sub-block takes fits its port and stands on it; the width stays. -/
theorem withInput_some {b b' : SubBlock} {w : Nat} (h : b.withInput w = some b') :
    w < 2 ^ b.width ∧ b'.input = w ∧ b'.width = b.width := by
  rcases withInput_cases h with ⟨d, rfl, hw, rfl⟩ | ⟨c, rfl, hw, rfl⟩ | ⟨c, rfl, hw, rfl⟩
  · exact ⟨hw, Nat.mod_eq_of_lt hw, rfl⟩
  · exact ⟨hw, Nat.mod_eq_of_lt hw, rfl⟩
  · exact ⟨hw, Nat.mod_eq_of_lt hw, rfl⟩

theorem withInput_too_wide {b : SubBlock} {w : Nat} (h : 2 ^ b.width ≤ w) : b.withInput w = none := by
  cases b with
  | encoder d => exact if_neg (Nat.not_lt.2 h)
  | syndromeCalculator c => exact if_neg (Nat.not_lt.2 h)
  | decoder c => exact if_neg (Nat.not_lt.2 h)

/-! ### Reading by place (R21, R111) -/

theorem blockAt_further {s : State} {k : Nat} {b : SubBlock} :
    s.blockAt (.further k) = .ok b ↔ s.further[k]? = some b := by
  cases h : s.further[k]? <;> simp [State.blockAt, h]

@[simp] theorem blockAt_with_script (s : State) (rest : List HostAction) (p : Place) :
    State.blockAt { s with script := rest } p = s.blockAt p := rfl

@[simp] theorem blockAt_returning (s : State) (v : HostValue) (p : Place) :
    (s.returning v).blockAt p = s.blockAt p := rfl

@[simp] theorem blockAt_raiseInvalidInput (s : State) (p : Place) : s.raiseInvalidInput.blockAt p = s.blockAt p := rfl

theorem blockAt_driveEncoder_other (s : State) (d : W4) {q : Place} (hq : q ≠ .encoder) :
    (s.driveEncoder d).blockAt q = s.blockAt q := by
  cases q with
  | encoder => exact absurd rfl hq
  | syndromeCalculator => rfl
  | decoder => rfl
  | further k => rfl

theorem blockAt_driveSyndrome_other (s : State) (c : W7) {q : Place} (hq : q ≠ .syndromeCalculator) :
    (s.driveSyndrome c).blockAt q = s.blockAt q := by
  cases q with
  | encoder => rfl
  | syndromeCalculator => exact absurd rfl hq
  | decoder => rfl
  | further k => rfl

theorem blockAt_driveDecoder_other (s : State) (c : W7) {q : Place} (hq : q ≠ .decoder) :
    (s.driveDecoder c).blockAt q = s.blockAt q := by
  cases q with
  | encoder => rfl
  | syndromeCalculator => rfl
  | decoder => exact absurd rfl hq
  | further k => rfl

/-- R21: the output at a place is a function of the sub-block there. -/
theorem outputAt_of_blockAt {s : State} {p : Place} {b : SubBlock} (h : s.blockAt p = .ok b) :
    s.outputAt p = .ok b.output := by
  simp [State.outputAt, h]

theorem outputAt_congr {s t : State} {p : Place} (h : t.blockAt p = s.blockAt p) : t.outputAt p = s.outputAt p := by
  simp [State.outputAt, h]

/-- A state is the sub-blocks at its places and the host's side, and nothing else (R20). -/
theorem state_ext_blockAt {s t : State} (hblock : ∀ p, t.blockAt p = s.blockAt p)
    (hhost : t.result = s.result ∧ t.vars = s.vars ∧ t.script = s.script ∧ t.draws = s.draws) : t = s := by
  obtain ⟨hresult, hvars, hscript, hdraws⟩ := hhost
  have hencoder : t.dataIn = s.dataIn := by simpa [State.blockAt] using hblock .encoder
  have hsyndrome : t.synCodeIn = s.synCodeIn := by simpa [State.blockAt] using hblock .syndromeCalculator
  have hdecoder : t.decCodeIn = s.decCodeIn := by simpa [State.blockAt] using hblock .decoder
  have hfurther : t.further = s.further :=
    List.ext_getElem? fun k => Option.ext fun b => by rw [← blockAt_further, ← blockAt_further, hblock]
  cases s
  cases t
  simp_all

/-! ### Driving one place (R108) -/

/-- The sub-block at a place that is driven takes the word. -/
theorem driveAt_blockAt_same {s t : State} {p : Place} {w : Nat} (h : s.driveAt p w = .ok t) :
    ∃ b b', s.blockAt p = .ok b ∧ b.withInput w = some b' ∧ t.blockAt p = .ok b' := by
  rcases driveAt_ok_cases h with ⟨rfl, hw, rfl⟩ | ⟨rfl, hw, rfl⟩ | ⟨rfl, hw, rfl⟩ | ⟨k, b, b', rfl, hb, hb', rfl⟩
  · exact ⟨_, _, rfl, if_pos hw, rfl⟩
  · exact ⟨_, _, rfl, if_pos hw, rfl⟩
  · exact ⟨_, _, rfl, if_pos hw, rfl⟩
  · have hk : k < s.further.length := (List.getElem?_eq_some_iff.1 hb).1
    exact ⟨b, b', blockAt_further.2 hb, hb', blockAt_further.2 (List.getElem?_set_self hk)⟩

/-- The sub-block at every other place stays (R34). -/
theorem driveAt_blockAt_other {s t : State} {p q : Place} {w : Nat} (h : s.driveAt p w = .ok t) (hq : q ≠ p) :
    t.blockAt q = s.blockAt q := by
  rcases driveAt_ok_cases h with ⟨rfl, -, rfl⟩ | ⟨rfl, -, rfl⟩ | ⟨rfl, -, rfl⟩ | ⟨k, b, b', rfl, -, -, rfl⟩
  · exact blockAt_driveEncoder_other s _ hq
  · exact blockAt_driveSyndrome_other s _ hq
  · exact blockAt_driveDecoder_other s _ hq
  · cases q with
    | encoder => rfl
    | syndromeCalculator => rfl
    | decoder => rfl
    | further j =>
      have hj : k ≠ j := fun hkj => hq (congrArg Place.further hkj.symm)
      simp [State.blockAt, List.getElem?_set_ne hj]

/-- A port takes every word that fits it. -/
theorem driveAt_of_fits {s : State} {p : Place} {b : SubBlock} {w : Nat} (hb : s.blockAt p = .ok b)
    (hw : w < 2 ^ b.width) : ∃ t, s.driveAt p w = .ok t := by
  cases p with
  | encoder => cases hb; exact ⟨_, if_pos hw⟩
  | syndromeCalculator => cases hb; exact ⟨_, if_pos hw⟩
  | decoder => cases hb; exact ⟨_, if_pos hw⟩
  | further k =>
    obtain ⟨b', hb'⟩ := withInput_of_fits hw
    simp [State.driveAt, blockAt_further.1 hb, hb']

/-- A word too wide for the port is refused by name (log 11). -/
theorem driveAt_too_wide {s : State} {p : Place} {b : SubBlock} {w : Nat} (hb : s.blockAt p = .ok b)
    (hw : 2 ^ b.width ≤ w) : s.driveAt p w = .error (.wordDoesNotFit w) := by
  cases p with
  | encoder => cases hb; exact if_neg (Nat.not_lt.2 hw)
  | syndromeCalculator => cases hb; exact if_neg (Nat.not_lt.2 hw)
  | decoder => cases hb; exact if_neg (Nat.not_lt.2 hw)
  | further k => simp [State.driveAt, blockAt_further.1 hb, withInput_too_wide hw]

/-- Settles O31: the driven place takes the word, every other place stays. -/
theorem drivingOnePortLeavesTheOthers : Obligations.DrivingOnePortLeavesTheOthers := by
  intro s t p w h
  refine ⟨fun q hq => ?_, fun b hb => ?_⟩
  · have hother := driveAt_blockAt_other h hq
    exact ⟨hother, outputAt_congr hother⟩
  · obtain ⟨b₀, b', hb₀, hb', ht⟩ := driveAt_blockAt_same h
    cases hb₀.symm.trans hb
    exact ⟨b', hb', ht, outputAt_of_blockAt ht⟩

/-- Settles O49, by whether the word fits the port. -/
theorem everyInputPortTakesEveryFittingWord : Obligations.EveryInputPortTakesEveryFittingWord := by
  intro s p b w hb
  refine ⟨fun hw => ?_, driveAt_too_wide hb⟩
  obtain ⟨t, ht⟩ := driveAt_of_fits hb hw
  obtain ⟨b₀, b', hb₀, hb', hblock⟩ := driveAt_blockAt_same ht
  cases hb₀.symm.trans hb
  obtain ⟨-, hinput, hwidth⟩ := withInput_some hb'
  exact ⟨t, b', ht, hblock, hinput, hwidth, outputAt_of_blockAt hblock⟩

/-! ### Driving several places (R34) -/

theorem driveAll_cons {s u : State} {p : Place} {w : Nat} (rest : List (Place × Nat)) (h : s.driveAt p w = .ok u) :
    s.driveAll ((p, w) :: rest) = u.driveAll rest := by
  simp [State.driveAll, h]

theorem driveAll_cons_ok {s t : State} {d : Place × Nat} {rest : List (Place × Nat)}
    (h : s.driveAll (d :: rest) = .ok t) : ∃ u, s.driveAt d.1 d.2 = .ok u ∧ u.driveAll rest = .ok t := by
  simp only [State.driveAll] at h
  split at h
  · cases h
  · exact ⟨_, ‹_›, h⟩

/-- `t` is `s` with the listed places driven: each carries its word, and nothing else has changed.  The order of the list
plays no part. -/
structure Driven (ds : List (Place × Nat)) (s t : State) : Prop where
  listed : ∀ d ∈ ds, ∃ b b', s.blockAt d.1 = .ok b ∧ b.withInput d.2 = some b' ∧ t.blockAt d.1 = .ok b'
  elsewhere : ∀ q ∉ ds.map Prod.fst, t.blockAt q = s.blockAt q
  host_side : t.result = s.result ∧ t.vars = s.vars ∧ t.script = s.script ∧ t.draws = s.draws

theorem Driven.perm {ds ds' : List (Place × Nat)} {s t : State} (h : Driven ds s t) (hperm : ds.Perm ds') :
    Driven ds' s t where
  listed d hd := h.listed d (hperm.mem_iff.2 hd)
  elsewhere q hq := h.elsewhere q fun hmem => hq ((hperm.map Prod.fst).mem_iff.1 hmem)
  host_side := h.host_side

/-- Driving one more place first, none of the others. -/
theorem driven_cons {d : Place × Nat} {rest : List (Place × Nat)} {s u t : State} (hd : d.1 ∉ rest.map Prod.fst)
    (hu : s.driveAt d.1 d.2 = .ok u) : Driven (d :: rest) s t ↔ Driven rest u t := by
  obtain ⟨b, b', hsb, hb', hub⟩ := driveAt_blockAt_same hu
  obtain ⟨hresult, hvars, hscript, hdraws⟩ := driveAt_frame hu
  have hother : ∀ q, q ≠ d.1 → u.blockAt q = s.blockAt q := fun q hq => driveAt_blockAt_other hu hq
  have hrest : ∀ e ∈ rest, u.blockAt e.1 = s.blockAt e.1 := fun e he =>
    hother e.1 fun heq => hd (heq ▸ List.mem_map_of_mem he)
  constructor
  · intro h
    refine ⟨fun e he => ?_, fun q hq => ?_, by rw [hresult, hvars, hscript, hdraws]; exact h.host_side⟩
    · rw [hrest e he]
      exact h.listed e (List.mem_cons_of_mem d he)
    · by_cases hqd : q = d.1
      · obtain ⟨c, c', hsc, hc', htc⟩ := h.listed d List.mem_cons_self
        cases hsb.symm.trans hsc
        cases hb'.symm.trans hc'
        rw [hqd, htc, hub]
      · rw [hother q hqd]
        exact h.elsewhere q (by simp [hqd, hq])
  · intro h
    refine ⟨List.forall_mem_cons.2 ⟨⟨b, b', hsb, hb', ?_⟩, fun e he => ?_⟩, fun q hq => ?_, ?_⟩
    · rw [h.elsewhere d.1 hd, hub]
    · rw [← hrest e he]
      exact h.listed e he
    · rw [List.map_cons, List.mem_cons, not_or] at hq
      rw [h.elsewhere q hq.2, hother q hq.1]
    · rw [← hresult, ← hvars, ← hscript, ← hdraws]
      exact h.host_side

/-- The spec lemma of `driveAll`: the list is driven, whatever its order. -/
theorem driveAll_ok_iff {ds : List (Place × Nat)} {s t : State} (hnodup : (ds.map Prod.fst).Nodup) :
    s.driveAll ds = .ok t ↔ Driven ds s t := by
  induction ds generalizing s with
  | nil =>
    constructor
    · intro h
      cases h
      exact ⟨by simp, fun _ _ => rfl, ⟨rfl, rfl, rfl, rfl⟩⟩
    · intro h
      exact congrArg Except.ok (state_ext_blockAt (fun q => h.elsewhere q (by simp)) h.host_side).symm
  | cons d rest ih =>
    rw [List.map_cons, List.nodup_cons] at hnodup
    obtain ⟨hd, hrest⟩ := hnodup
    constructor
    · intro h
      obtain ⟨u, hu, hut⟩ := driveAll_cons_ok h
      exact (driven_cons hd hu).2 ((ih hrest).1 hut)
    · intro h
      obtain ⟨b, b', hb, hb', -⟩ := h.listed d List.mem_cons_self
      obtain ⟨u, hu⟩ := driveAt_of_fits hb (withInput_some hb').1
      rw [driveAll_cons rest hu]
      exact (ih hrest).2 ((driven_cons hd hu).1 h)

/-- Driving places that are there, each with a word that fits, completes. -/
theorem driveAll_of_fits {ds : List (Place × Nat)} {s : State} (hnodup : (ds.map Prod.fst).Nodup)
    (hfits : ∀ d ∈ ds, ∃ b, s.blockAt d.1 = .ok b ∧ d.2 < 2 ^ b.width) : ∃ t, s.driveAll ds = .ok t := by
  induction ds generalizing s with
  | nil => exact ⟨s, rfl⟩
  | cons d rest ih =>
    rw [List.map_cons, List.nodup_cons] at hnodup
    obtain ⟨hd, hrest⟩ := hnodup
    obtain ⟨⟨b, hb, hw⟩, hfitsRest⟩ := List.forall_mem_cons.1 hfits
    obtain ⟨u, hu⟩ := driveAt_of_fits hb hw
    rw [driveAll_cons rest hu]
    refine ih hrest fun e he => ?_
    rw [driveAt_blockAt_other hu fun heq => hd (heq ▸ List.mem_map_of_mem he)]
    exact hfitsRest e he

/-- Settles O32: what driving a list without a place twice does is said without its order. -/
theorem portsDrivenTogetherInAnyOrder : Obligations.PortsDrivenTogetherInAnyOrder := by
  intro ds ds' s t hperm hnodup h
  have hnodup' : (ds'.map Prod.fst).Nodup := (hperm.map Prod.fst).nodup_iff.1 hnodup
  exact (driveAll_ok_iff hnodup').2 (((driveAll_ok_iff hnodup).1 h).perm hperm)

theorem runAction_drive {ds : List (Place × Nat)} {s t : State} (hnodup : (ds.map Prod.fst).Nodup)
    (h : s.driveAll ds = .ok t) : runAction (.drive ds) s = .next t := by
  simp [runAction, runDrive, hnodup, h]

/-- A port driven twice at the same time is refused by name (R25, log 11). -/
theorem runAction_drive_twice {ds : List (Place × Nat)} (s : State) (h : ¬(ds.map Prod.fst).Nodup) :
    runAction (.drive ds) s = .refused .drivenTwice := if_neg h

/-- Settles O50, by what `driveAll` does to the listed places and to the others. -/
theorem driveStepDrivesEveryListedPort : Obligations.DriveStepDrivesEveryListedPort := by
  intro s ds rest hscript
  rw [step_action hscript]
  refine ⟨fun hnodup hfits => ?_, runAction_drive_twice _⟩
  obtain ⟨t, ht⟩ := driveAll_of_fits (s := { s with script := rest }) hnodup hfits
  obtain ⟨hlisted, helsewhere, hresult, hvars, hscript', hdraws⟩ := (driveAll_ok_iff hnodup).1 ht
  refine ⟨t, runAction_drive hnodup ht, ht, hresult, hvars, hscript', hdraws, fun d hd => ?_, fun q hq => ?_⟩
  · obtain ⟨b, b', -, hb', hblock⟩ := hlisted d hd
    exact ⟨b', hblock, (withInput_some hb').2.1, outputAt_of_blockAt hblock⟩
  · have hblock : t.blockAt q = s.blockAt q := helsewhere q hq
    exact ⟨hblock, outputAt_congr hblock⟩

end Sys2Proof.Machine
end

section
/-! PROOFS. What an instruction does as a function of the instruction alone: its frame, repeating it, and what it returns. -/

namespace Sys2Proof.Machine

/-- Whether an instruction completes, the word it drives and the value it returns do not depend on the state: it drives the
sub-block of its own row, or raises InvalidInput, or is refused, in every state alike (R21, R93, R95). -/
theorem exec_cases (i : Instr) :
    (∃ d v, i.row.place = .encoder ∧ ∀ s, exec i s = .next ((s.driveEncoder d).returning v)) ∨
    (∃ c v, i.row.place = .syndromeCalculator ∧ ∀ s, exec i s = .next ((s.driveSyndrome c).returning v)) ∨
    (∃ c v, i.row.place = .decoder ∧ ∀ s, exec i s = .next ((s.driveDecoder c).returning v)) ∨
    (∀ s, exec i s = .next s.raiseInvalidInput) ∨
    (∀ s, exec i s = .refused .argumentNotASequence) := by
  cases i with
  | encodePort d => exact .inl ⟨d, .word (ENCODE d).toNat, rfl, fun s => rfl⟩
  | syndromePort c => exact .inr (.inl ⟨c, .word (SYNDROME c).toNat, rfl, fun s => rfl⟩)
  | decodePort c => exact .inr (.inr (.inl ⟨c, .word (DECODE c).toNat, rfl, fun s => rfl⟩))
  | encodeCall a =>
    cases a with
    | chars cs =>
      by_cases hv : valid cs 4 = true
      · exact .inl ⟨_, _, rfl, fun s => (execEncodeCall_chars cs s).trans (by rw [if_pos hv])⟩
      · exact .inr (.inr (.inr (.inl fun s => (execEncodeCall_chars cs s).trans (by rw [if_neg hv]))))
    | word n => exact .inr (.inr (.inr (.inr fun s => rfl)))
    | invalidInput => exact .inr (.inr (.inr (.inr fun s => rfl)))
    | other o => exact .inr (.inr (.inr (.inr fun s => rfl)))
  | decodeCall a =>
    cases a with
    | chars cs =>
      by_cases hv : valid cs 7 = true
      · exact .inr (.inr (.inl ⟨_, _, rfl, fun s => (execDecodeCall_chars cs s).trans (by rw [if_pos hv])⟩))
      · exact .inr (.inr (.inr (.inl fun s => (execDecodeCall_chars cs s).trans (by rw [if_neg hv]))))
    | word n => exact .inr (.inr (.inr (.inr fun s => rfl)))
    | invalidInput => exact .inr (.inr (.inr (.inr fun s => rfl)))
    | other o => exact .inr (.inr (.inr (.inr fun s => rfl)))

/-- An instruction leaves every sub-block alone but the one of its row. -/
theorem exec_blockAt_other {i : Instr} {s t : State} (h : exec i s = .next t) {p : Place} (hp : p ≠ i.row.place) :
    t.blockAt p = s.blockAt p := by
  rcases exec_cases i with ⟨d, v, hrow, hexec⟩ | ⟨c, v, hrow, hexec⟩ | ⟨c, v, hrow, hexec⟩ | hexec | hexec <;>
    cases (hexec s).symm.trans h
  · exact blockAt_driveEncoder_other s d (hrow ▸ hp)
  · exact blockAt_driveSyndrome_other s c (hrow ▸ hp)
  · exact blockAt_driveDecoder_other s c (hrow ▸ hp)
  · exact blockAt_raiseInvalidInput s p

/-- An instruction leaves the further sub-blocks and the host's side alone, but for the result. -/
theorem exec_frame {i : Instr} {s t : State} (h : exec i s = .next t) :
    t.further = s.further ∧ t.vars = s.vars ∧ t.script = s.script ∧ t.draws = s.draws := by
  rcases exec_next_cases h with ⟨d, v, rfl, -⟩ | ⟨c, rfl⟩ | ⟨c, v, rfl, -⟩ | rfl <;> simp

/-- Settles O27, by the sub-block of the instruction's row. -/
theorem instructionsTouchOnlyTheirOwnSubBlock : Obligations.InstructionsTouchOnlyTheirOwnSubBlock := by
  intro i s t h
  obtain ⟨hfurther, hvars, hscript, hdraws⟩ := exec_frame h
  refine ⟨hfurther, hvars, hscript, hdraws, fun p hp => ?_⟩
  have hblock := exec_blockAt_other h hp
  exact ⟨hblock, outputAt_congr hblock⟩

/-- Settles O28: the second time the same word is driven and the same value is returned. -/
theorem repeatingAnOperationChangesNothing : Obligations.RepeatingAnOperationChangesNothing := by
  intro i s t h
  rcases exec_cases i with ⟨d, v, -, hexec⟩ | ⟨c, v, -, hexec⟩ | ⟨c, v, -, hexec⟩ | hexec | hexec <;>
    cases (hexec s).symm.trans h
  · exact hexec _
  · exact hexec _
  · exact hexec _
  · exact hexec _

/-- Settles O29: the value returned, or the refusal, is the same in every state. -/
theorem resultsDependOnTheOperationAlone : Obligations.ResultsDependOnTheOperationAlone := by
  intro i s
  rcases exec_cases i with ⟨d, v, -, hexec⟩ | ⟨c, v, -, hexec⟩ | ⟨c, v, -, hexec⟩ | hexec | hexec <;>
    rw [hexec s, hexec State.reset] <;> exact ⟨rfl, rfl⟩

end Sys2Proof.Machine
end

section
/-! PROOFS. The nets that R26 names. -/

namespace Sys2Proof.Machine

/-- R61: the encoder's nets in closed form. -/
theorem parityNets_eq (d : W4) : parityNets d =
    (d.getLsbD 0 ^^ d.getLsbD 1 ^^ d.getLsbD 3, d.getLsbD 0 ^^ d.getLsbD 2 ^^ d.getLsbD 3,
      d.getLsbD 1 ^^ d.getLsbD 2 ^^ d.getLsbD 3) := by
  rw [parityNets, ENCODE_eq_closedCode, getLsbD_closedCode d (by decide), getLsbD_closedCode d (by decide),
    getLsbD_closedCode d (by decide)]
  rfl

/-- R70: the syndrome calculator's nets in closed form. -/
theorem checkNets_eq (c : W7) : checkNets c = (closedS1 c, closedS2 c, closedS4 c) := by
  rw [checkNets, mismatch_zero, mismatch_one, mismatch_three]

/-- R80: the flip mask holds one bit at most. -/
theorem weight_flipMask_le : ∀ syn : W3, weight (flipMask syn) ≤ 1 := by decide

theorem flipMask_of_ne {syn : W3} (h : syn ≠ 0) : flipMask syn = 1#7 <<< (syn.toNat - 1) := if_pos (bne_iff_ne.2 h)

/-- Settles O37, net by net. -/
theorem namedNetsMakeTheOutputs : Obligations.NamedNetsMakeTheOutputs := by
  intro d c s
  refine ⟨⟨_, rfl, rfl, parityNets_eq d⟩, ⟨_, rfl, checkNets_eq c, ?_⟩,
    ⟨_, rfl, rfl, SYNDROME_eq_closedSyndrome c, flipMask_of_ne, fun h => ?_, rfl, weight_flipMask_le _, rfl⟩⟩
  · rw [checkNets_eq]
    exact SYNDROME_eq_closedSyndrome c
  · change flipMask (decoderNets c).1 = 0
    rw [h]
    rfl

end Sys2Proof.Machine
end

section
/-! PROOFS. One instruction performed in two states, and two instructions in either order. -/

namespace Sys2Proof.Machine

/-- An instruction that completes in one state completes in every state and returns the same (R21, R93). -/
theorem exec_next_everywhere {i : Instr} {s t : State} (h : exec i s = .next t) (s' : State) :
    ∃ t', exec i s' = .next t' ∧ t'.result = t.result := by
  rcases exec_cases i with ⟨d, v, -, hexec⟩ | ⟨c, v, -, hexec⟩ | ⟨c, v, -, hexec⟩ | hexec | hexec <;>
    cases (hexec s).symm.trans h <;> exact ⟨_, hexec s', rfl⟩

/-- What an instruction leaves at a place depends on the instruction and on what was at that place, and on no other
sub-block (R34). -/
theorem exec_blockAt_congr {i : Instr} {s s' t t' : State} (h : exec i s = .next t) (h' : exec i s' = .next t')
    {p : Place} (hp : s'.blockAt p = s.blockAt p) : t'.blockAt p = t.blockAt p := by
  by_cases hown : p = i.row.place
  · subst hown
    rcases exec_cases i with ⟨d, v, hrow, hexec⟩ | ⟨c, v, hrow, hexec⟩ | ⟨c, v, hrow, hexec⟩ | hexec | hexec <;>
      cases (hexec s).symm.trans h <;> cases (hexec s').symm.trans h'
    · rw [hrow]; rfl
    · rw [hrow]; rfl
    · rw [hrow]; rfl
    · simpa using hp
  · rw [exec_blockAt_other h' hown, exec_blockAt_other h hown, hp]

/-- Two instructions performed on different sub-blocks leave every sub-block the same in either order: at most one of
them drives the sub-block at a given place. -/
theorem exec_blockAt_comm {i j : Instr} {s t u t' u' : State} (hij : i.row.place ≠ j.row.place)
    (hi : exec i s = .next t) (hj : exec j t = .next u) (hj' : exec j s = .next t') (hi' : exec i t' = .next u')
    (p : Place) : u'.blockAt p = u.blockAt p := by
  by_cases hp : p = i.row.place
  · have hpj : p ≠ j.row.place := hp ▸ hij
    calc u'.blockAt p = t.blockAt p := exec_blockAt_congr hi hi' (exec_blockAt_other hj' hpj)
      _ = u.blockAt p := (exec_blockAt_other hj hpj).symm
  · calc u'.blockAt p = t'.blockAt p := exec_blockAt_other hi' hp
      _ = u.blockAt p := exec_blockAt_congr hj hj' (exec_blockAt_other hi hp).symm

/-- Settles O30: each instruction completes and returns alike in every state, and on different sub-blocks they commute. -/
theorem orderOfOperationsDoesNotMatter : Obligations.OrderOfOperationsDoesNotMatter := by
  intro i j s t u hi hj
  obtain ⟨t', hj', hresult_j⟩ := exec_next_everywhere hj s
  obtain ⟨u', hi', hresult_i⟩ := exec_next_everywhere hi t'
  exact ⟨t', u', hj', hi', hresult_j, hresult_i, fun hij => exec_blockAt_comm hij hi hj hj' hi'⟩

end Sys2Proof.Machine
end

section
/-! PROOFS. The step that performs an encoded operation (R46, R51). -/

namespace Sys2Proof.Machine

theorem runCode_of_decode_ok {code : Code} {i : Instr} (h : decode code = .ok i) (s : State) :
    runCode code s = exec i s := by
  simp [runCode, h]

theorem runCode_of_decode_error {code : Code} {e : DecodeError} (h : decode code = .error e) (s : State) :
    runCode code s = .refused (.undecodable e) := by
  simp [runCode, h]

/-- With an encoded operation next, the step performs it with that action taken off the script. -/
theorem step_issue {s : State} {code : Code} {rest : List HostAction} (h : s.script = .issue code :: rest) :
    step s = runCode code { s with script := rest } := step_action h

/-- A table word that is placed is performed by the very next step, which takes it off again (log 4, log 6). -/
theorem step_withFetchWord (s : State) (nbits w : Nat) :
    step (s.withFetchWord nbits w) = runCode (Code.ofTableWord nbits w) s := step_issue rfl

theorem decodeTableWord_eq_some {nbits w : Nat} {i : Instr} :
    decodeTableWord nbits w = some i ↔ decode (Code.ofTableWord nbits w) = .ok i := by
  unfold decodeTableWord
  cases decode (Code.ofTableWord nbits w) <;> simp [Except.toOption]

/-- Settles O42, by what the next action is: an encoded operation, a placed table word, or nothing. -/
theorem stepPerformsTheDecodedOperation : Obligations.StepPerformsTheDecodedOperation := by
  refine ⟨fun s code rest hscript => ⟨fun i hi => ?_, fun e he => ?_⟩, fun s nbits w i hi => ?_, fun s => step_idle⟩
  · rw [step_issue hscript, runCode_of_decode_ok hi]
  · rw [step_issue hscript, runCode_of_decode_error he]
  · rw [step_withFetchWord, runCode_of_decode_ok (decodeTableWord_eq_some.1 hi)]

end Sys2Proof.Machine
end

section
/-! PROOFS. The decoder and the encoder undo each other, and what the decoder takes (R46, R47, R49, R51). -/

namespace Sys2Proof

/-- A port reads back the word whose bits are put on its wires. -/
theorem decodeWires_bitsOfValue {k : Nat} (row : Row) (w : BitVec k) (mk : BitVec k → Instr) :
    decodeWires row k (bitsOfValue k w.toNat) mk = .ok (mk w) :=
  decodeWires_ok.2 ⟨bitsOfValue_length k w.toNat, by rw [ofNat_valueOfBits]⟩

/-- The word read from a port's wires is written back on the same wires. -/
theorem bitsOfValue_ofNat_valueOfBits {k : Nat} {bs : List Bool} (h : bs.length = k) :
    bitsOfValue k (BitVec.ofNat k (valueOfBits bs)).toNat = bs := by
  subst h
  rw [BitVec.toNat_ofNat, Nat.mod_eq_of_lt (valueOfBits_lt bs), bitsOfValue_valueOfBits]

/-- A port takes exactly the wire lists of its own width (R49, D2). -/
theorem decodeWires_takes_iff {row : Row} {k : Nat} {bs : List Bool} {mk : BitVec k → Instr} :
    (∃ i, decodeWires row k bs mk = .ok i) ↔ some k = some bs.length := by
  simp only [decodeWires_ok, exists_and_left, exists_eq, and_true, Option.some.injEq]
  exact eq_comm

/-- Settles O38: a port reads its own wires back, an entry point hands its argument on. -/
theorem decodeOfEncodeIsTheInstruction : Obligations.DecodeOfEncodeIsTheInstruction := by
  intro i
  cases i with
  | encodePort d => exact decodeWires_bitsOfValue .ENCODE d .encodePort
  | syndromePort c => exact decodeWires_bitsOfValue .SYNDROME c .syndromePort
  | decodePort c => exact decodeWires_bitsOfValue .DECODE c .decodePort
  | encodeCall a => rfl
  | decodeCall a => rfl

/-- Encoding what was read from a port's wires gives the operation of that row on those wires, where encoding `mk w` does so
for every word `w` of the port. -/
theorem encode_of_decodeWires_ok {row : Row} {k : Nat} {bs : List Bool} {mk : BitVec k → Instr} {i : Instr}
    (hmk : ∀ w, encode (mk w) = ⟨row, .bits (bitsOfValue k w.toNat)⟩) (h : decodeWires row k bs mk = .ok i) :
    encode i = ⟨row, .bits bs⟩ := by
  obtain ⟨hlen, rfl⟩ := decodeWires_ok.1 h
  rw [hmk, bitsOfValue_ofNat_valueOfBits hlen]

/-- Settles O39, by row and by what comes with it: wires at a port and an argument at an entry point are read, the rest is
refused. -/
theorem encodeOfDecodeIsTheCode : Obligations.EncodeOfDecodeIsTheCode := by
  rintro ⟨row, input⟩ i h
  cases input with
  | bits bs =>
    cases row with
    | ENCODE => exact encode_of_decodeWires_ok (fun _ => rfl) h
    | SYNDROME => exact encode_of_decodeWires_ok (fun _ => rfl) h
    | DECODE => exact encode_of_decodeWires_ok (fun _ => rfl) h
    | encode => cases h
    | decode => cases h
  | argument a =>
    cases row with
    | ENCODE => cases h
    | SYNDROME => cases h
    | DECODE => cases h
    | encode => cases h; rfl
    | decode => cases h; rfl

/-- Settles O40, row by row. -/
theorem decoderTakesEveryWordOfItsWidth : Obligations.DecoderTakesEveryWordOfItsWidth := by
  intro row bs a
  cases row with
  | ENCODE => exact ⟨decodeWires_takes_iff, by simp [decode, Row.width]⟩
  | SYNDROME => exact ⟨decodeWires_takes_iff, by simp [decode, Row.width]⟩
  | DECODE => exact ⟨decodeWires_takes_iff, by simp [decode, Row.width]⟩
  | encode => exact ⟨by simp [decode, Row.width], by simp [decode, Row.width]⟩
  | decode => exact ⟨by simp [decode, Row.width], by simp [decode, Row.width]⟩

/-- Settles O41: the decoder reads the five written-out operations. -/
theorem sampleCodesDecodeRight : Obligations.SampleCodesDecodeRight :=
  ⟨rfl, rfl, rfl, rfl, rfl⟩

end Sys2Proof
end

section
/-! PROOFS. Sequences and words: element i is bit i (R43). -/

namespace Sys2Proof.Machine

theorem testBit_wordOf (cs : List Char) (i : Nat) : (wordOf cs).testBit i = (cs[i]? == some '1') := by
  induction cs generalizing i with
  | nil => simp [wordOf]
  | cons c cs ih =>
    cases i with
    | zero =>
      by_cases hc : c = '1' <;> simp [wordOf, bitOf, hc, Nat.testBit_zero]
    | succ i =>
      have hhalf : (bitOf c + 2 * wordOf cs) / 2 = wordOf cs := by
        unfold bitOf
        split <;> omega
      rw [wordOf, Nat.testBit_succ, hhalf, ih, List.getElem?_cons_succ]

/-- R43's sum, by taking element 0 off: every further element counts twice what it does in the rest. -/
theorem wordOf_eq_sum (cs : List Char) :
    wordOf cs = ((List.range cs.length).map fun i => bitOf (cs.getD i '0') <<< i).sum := by
  induction cs with
  | nil => rfl
  | cons c cs ih =>
    have hshift : ∀ b i : Nat, b <<< (i + 1) = 2 * b <<< i := fun b i => by
      rw [Nat.shiftLeft_succ]
    simp [wordOf, ih, List.range_succ_eq_map, List.map_map, Function.comp_def, hshift, List.sum_map_mul_left]

theorem seqOf_getElem? {n : Nat} (w : BitVec n) {i : Nat} (hi : i < n) :
    (seqOf w)[i]? = some (charOf (w.getLsbD i)) := by
  simp [seqOf, hi]

theorem wordOf_seqOf {n : Nat} (w : BitVec n) : wordOf (seqOf w) = w.toNat := by
  apply Nat.eq_of_testBit_eq
  intro i
  rw [testBit_wordOf, BitVec.testBit_toNat]
  by_cases hi : i < n
  · rw [seqOf_getElem? w hi]
    cases w.getLsbD i <;> rfl
  · rw [List.getElem?_eq_none (by simpa using hi), BitVec.getLsbD_of_ge w i (Nat.not_lt.1 hi)]
    rfl

theorem ofNat_wordOf_seqOf {n : Nat} (w : BitVec n) : BitVec.ofNat n (wordOf (seqOf w)) = w := by
  rw [wordOf_seqOf, BitVec.ofNat_toNat, BitVec.setWidth_eq]

/-- A binary sequence is the sequence of its word: each element is the character of its bit. -/
theorem seqOf_ofNat_wordOf {cs : List Char} (h : cs.all isBinary = true) :
    seqOf (BitVec.ofNat cs.length (wordOf cs)) = cs := by
  apply List.ext_getElem?
  intro i
  by_cases hi : i < cs.length
  · have hbinary : cs[i] = '0' ∨ cs[i] = '1' := by
      simpa [isBinary] using List.all_eq_true.1 h cs[i] (List.getElem_mem hi)
    have hbit : (BitVec.ofNat cs.length (wordOf cs)).getLsbD i = (cs[i] == '1') := by
      simp [BitVec.getLsbD_ofNat, hi, testBit_wordOf, -BitVec.getLsbD_eq_getElem]
    rw [seqOf_getElem? _ hi, hbit, List.getElem?_eq_getElem hi]
    rcases hbinary with hc | hc <;> rw [hc] <;> rfl
  · rw [List.getElem?_eq_none (by simpa using hi), List.getElem?_eq_none (Nat.not_lt.1 hi)]

/-- Settles O13, clause by clause. -/
theorem elementOfSequenceIsBitOfWord : Obligations.ElementOfSequenceIsBitOfWord :=
  ⟨testBit_wordOf, wordOf_eq_sum, fun _ w => ⟨seqOf_length w, fun _ hi => seqOf_getElem? w hi⟩,
    fun _ w => ⟨ofNat_wordOf_seqOf w, wordOf_seqOf w⟩, fun _ => seqOf_ofNat_wordOf, by decide, by decide, by decide⟩

end Sys2Proof.Machine
end

section
/-! PROOFS. Covering sets, and the fields of a codeword word (R44, R45). -/

namespace Sys2Proof.Machine

theorem mem_coveringSet {p i : Nat} : i ∈ coveringSet p ↔ i < 7 ∧ ((i + 1) &&& (p + 1)) ≠ 0 := by
  simp [coveringSet]

/-- Settles O14: membership is R44's definition, and the three sets are written out. -/
theorem coveringSetsAsListed : Obligations.CoveringSetsAsListed := by
  refine ⟨fun k _ i => ?_, coveringSet_zero, coveringSet_one, coveringSet_three, by decide⟩
  rw [mem_coveringSet, Nat.sub_add_cancel Nat.one_le_two_pow]

/-- R45: the payload bits in place and the parity positions 0, index 0 first. -/
theorem getLsbD_place (d : W4) {i : Nat} (hi : i < 7) : (place d).getLsbD i =
    [false, false, d.getLsbD 0, false, d.getLsbD 1, d.getLsbD 2, d.getLsbD 3].getD i false := by
  interval_cases i <;> simp [place, getLsbD_setBit, -BitVec.getLsbD_eq_getElem]

/-- R45: the codeword index each payload bit is read from. -/
theorem getLsbD_extract (c : W7) {k : Nat} (hk : k < 4) : (extract c).getLsbD k = c.getLsbD ([2, 4, 5, 6].getD k 0) := by
  simp only [extract, BitVec.getLsbD_append]
  interval_cases k <;> simp

theorem extract_place (d : W4) : extract (place d) = d := by
  apply BitVec.eq_of_getLsbD_eq
  intro k hk
  rw [getLsbD_extract _ hk]
  interval_cases k <;> exact getLsbD_place d (by decide)

/-- Settles O15, bit by bit. -/
theorem extractionInvertsPlacement : Obligations.ExtractionInvertsPlacement := by
  intro d c
  refine ⟨⟨?_, ?_, ?_, ?_, ?_, ?_, ?_⟩, ⟨?_, ?_, ?_, ?_⟩, extract_place d⟩
  iterate 7 exact getLsbD_place d (by decide)
  iterate 4 exact getLsbD_extract c (by decide)

end Sys2Proof.Machine
end

section
/-! PROOFS. Every well-formed instruction completes (R47, R91, R92), and what power-up leaves (R51, R21). -/

namespace Sys2Proof.Machine

theorem isSequence_iff {a : HostValue} : a.isSequence = true ↔ ∃ cs, a = .chars cs := by
  cases a <;> simp [HostValue.isSequence]

/-- A port operation always completes, and a host call does on a sequence of characters. -/
theorem exec_next_of_wf {i : Instr} (h : i.wf = true) (s : State) : ∃ t, exec i s = .next t := by
  cases i with
  | encodePort d => exact ⟨_, rfl⟩
  | syndromePort c => exact ⟨_, rfl⟩
  | decodePort c => exact ⟨_, rfl⟩
  | encodeCall a =>
    obtain ⟨cs, rfl⟩ := isSequence_iff.1 h
    exact ⟨_, execEncodeCall_chars cs s⟩
  | decodeCall a =>
    obtain ⟨cs, rfl⟩ := isSequence_iff.1 h
    exact ⟨_, execDecodeCall_chars cs s⟩

/-- Settles O25: it completes, and whatever completes returns a bindable value. -/
theorem everyWellFormedInstructionCompletes : Obligations.EveryWellFormedInstructionCompletes := by
  intro i s h
  obtain ⟨t, ht⟩ := exec_next_of_wf h s
  obtain ⟨-, -, v, hresult, hbindable⟩ := exec_host_side ht
  exact ⟨t, v, ht, hresult, hbindable⟩

/-- Settles O47: power-up binds nothing, returns nothing and has nothing pending, so the invariant asks nothing of it. -/
theorem powerUpMeetsTheInvariant : Obligations.PowerUpMeetsTheInvariant := by
  have hinv : State.reset.Inv := ⟨List.Pairwise.nil, List.forall_mem_nil _, rfl, List.forall_mem_nil _⟩
  exact ⟨hinv, rfl, rfl, rfl, rfl⟩

end Sys2Proof.Machine
end

section
/-! PROOFS. The script steps of R51: operations, literals and channel errors. -/

namespace Sys2Proof.Machine

/-! ### The word a step takes from an operand (logs 9, 17, 18) -/

theorem portWord_word {k n : Nat} (free : BitVec k) (h : n < 2 ^ k) : portWord (.word n) free = BitVec.ofNat k n :=
  portWord_stated free (statedWord_word h)

theorem portWord_chars {k : Nat} {cs : List Char} (free : BitVec k) (h : valid cs k = true) :
    portWord (.chars cs) free = BitVec.ofNat k (wordOf cs) :=
  portWord_stated free (statedWord_chars h)

/-! ### An operation step -/

/-- The step `x := <op>(src)`: its instruction is performed, the draw counted, and the result bound to x. -/
theorem step_bindOp {s u : State} {x : Var} {row : Row} {src : Operand} {rest : List HostAction} {v r : HostValue}
    {i : Instr} (hscript : s.script = .bindOp x row src :: rest) (hv : operandValue src s.vars = .ok v)
    (hi : decode (codeOfStep row v s.draws) = .ok i)
    (hu : exec i (State.countDraw { s with script := rest } (stepDraws row v)) = .next u) (hr : u.result = some r) :
    step s = .next (u.bindVar x r) := by
  have hrun : runCode (codeOfStep row v s.draws) (State.countDraw { s with script := rest } (stepDraws row v)) = .next u :=
    (runCode_of_decode_ok hi _).trans hu
  simp only [step_action hscript, runAction, runBindOp, hv, hrun, bindAfter, u.bindResult_of_result x hr]

/-- Binding a variable after an instruction leaves the script and every other variable as before the instruction. -/
theorem exec_bindVar_binds {i : Instr} {s u : State} (h : exec i s = .next u) (x : Var) (r : HostValue) :
    (u.bindVar x r).script = s.script ∧ lookup x (u.bindVar x r).vars = some r ∧
      ∀ y ≠ x, lookup y (u.bindVar x r).vars = lookup y s.vars := by
  obtain ⟨-, hvars, hscript, -⟩ := exec_frame h
  refine ⟨hscript, lookup_insertVar_same x r u.vars, fun y hy => ?_⟩
  rw [State.bindVar_vars, lookup_insertVar_other r u.vars hy, hvars]

/-- The word a port step drives and the draws it leaves, by what the spec states for the operand. -/
theorem portWord_and_draws {k : Nat} (v : HostValue) (free : BitVec k) (draws : Nat) :
    (∀ n, v = .word n → n < 2 ^ k →
      portWord v free = BitVec.ofNat k n ∧ draws + (statedWord k v).isNone.toNat = draws) ∧
    (∀ cs, v = .chars cs → valid cs k = true →
      portWord v free = BitVec.ofNat k (wordOf cs) ∧ draws + (statedWord k v).isNone.toNat = draws) ∧
    (statedWord k v = none → portWord v free = free ∧ draws + (statedWord k v).isNone.toNat = draws + 1) := by
  refine ⟨?_, ?_, fun h => ⟨portWord_free free h, by rw [h]; rfl⟩⟩
  · rintro n rfl h
    exact ⟨portWord_word free h, by rw [statedWord_word h]; rfl⟩
  · rintro cs rfl h
    exact ⟨portWord_chars free h, by rw [statedWord_chars h]; rfl⟩

/-- Settles O51, port by port: the word driven is `portWord` of the operand's value. -/
theorem scriptPortStepsRunOnEveryOperand : Obligations.ScriptPortStepsRunOnEveryOperand := by
  intro s x src rest v hv
  refine ⟨fun hscript => ?_, fun hscript => ?_, fun hscript => ?_⟩
  · have hstep := step_bindOp hscript hv (decode_codeOfStep .ENCODE v s.draws) rfl rfl
    rw [State.driveEncoder_codeOut, ENCODE_eq_closedCode] at hstep
    exact ⟨_, portWord v (Config.freeDataIn s.draws v), hstep, rfl, lookup_insertVar_same _ _ _,
      fun y hy => lookup_insertVar_other _ _ hy, portWord_and_draws (k := 4) v _ s.draws⟩
  · have hstep := step_bindOp hscript hv (decode_codeOfStep .SYNDROME v s.draws) rfl rfl
    rw [State.driveSyndrome_syndromeOut, SYNDROME_eq_closedSyndrome] at hstep
    exact ⟨_, portWord v (Config.freeSynCodeIn s.draws v), hstep, rfl, lookup_insertVar_same _ _ _,
      fun y hy => lookup_insertVar_other _ _ hy, portWord_and_draws (k := 7) v _ s.draws⟩
  · have hstep := step_bindOp hscript hv (decode_codeOfStep .DECODE v s.draws) rfl rfl
    rw [State.driveDecoder_dataOut, DECODE_eq_closedData] at hstep
    exact ⟨_, portWord v (Config.freeDecCodeIn s.draws v), hstep, rfl, lookup_insertVar_same _ _ _,
      fun y hy => lookup_insertVar_other _ _ hy, portWord_and_draws (k := 7) v _ s.draws⟩

/-- Settles O43, from O51: a word that fits the port is the word driven. -/
theorem scriptPortStepsBindTheRuleValue : Obligations.ScriptPortStepsBindTheRuleValue := by
  intro s x src rest n hv
  obtain ⟨hencode, hsyndrome, hdecode⟩ := scriptPortStepsRunOnEveryOperand s x src rest (.word n) hv
  refine ⟨fun hscript hn => ?_, fun hscript hn => ?_, fun hscript hn => ?_⟩
  · obtain ⟨t, w, hstep, ht, hbound, hothers, hword, -⟩ := hencode hscript
    obtain ⟨rfl, -⟩ := hword n rfl hn
    exact ⟨t, hstep, congrArg State.script ht, hbound, hothers⟩
  · obtain ⟨t, w, hstep, ht, hbound, hothers, hword, -⟩ := hsyndrome hscript
    obtain ⟨rfl, -⟩ := hword n rfl hn
    exact ⟨t, hstep, congrArg State.script ht, hbound, hothers⟩
  · obtain ⟨t, w, hstep, ht, hbound, hothers, hword, -⟩ := hdecode hscript
    obtain ⟨rfl, -⟩ := hword n rfl hn
    exact ⟨t, hstep, congrArg State.script ht, hbound, hothers⟩

/-- Settles O44: each call returns the string, or InvalidInput, and the step binds it. -/
theorem scriptCallStepsBindTheResult : Obligations.ScriptCallStepsBindTheResult := by
  intro s x src rest cs hv
  refine ⟨fun hscript => ?_, fun hscript => ?_⟩
  · have hexec := execEncodeCall_chars cs (State.countDraw { s with script := rest } (stepDraws .encode (.chars cs)))
    exact ⟨_, step_bindOp hscript hv (decode_codeOfStep .encode _ s.draws) hexec (by split <;> rfl),
      exec_bindVar_binds (i := .encodeCall (.chars cs)) hexec x _⟩
  · have hexec := execDecodeCall_chars cs (State.countDraw { s with script := rest } (stepDraws .decode (.chars cs)))
    exact ⟨_, step_bindOp hscript hv (decode_codeOfStep .decode _ s.draws) hexec (by split <;> rfl),
      exec_bindVar_binds (i := .decodeCall (.chars cs)) hexec x _⟩

/-! ### A channel-error step and a literal step -/

theorem step_bindXor {s : State} {x src : Var} {mask : Literal} {rest : List HostAction} {v : HostValue}
    (hv : lookup src s.vars = some v) (hscript : s.script = .bindXor x src mask :: rest) :
    step s = .next ((State.countDraw { s with script := rest }
      ((statedWord 7 v).isNone || (statedWord 7 mask.value).isNone)).bindVar x
        (.word (channelWord v mask.value s.draws).toNat)) := by
  have hoperand : operandValue (.var src) s.vars = .ok v := operandValue_var.2 hv
  simp only [step_action hscript, runAction, runBindXor, hoperand]

theorem countDraw_draws_eq_iff {s : State} {drawn : Bool} : (s.countDraw drawn).draws = s.draws ↔ drawn = false := by
  cases drawn <;> simp

/-- Settles O52: the word of the source and the word of the mask are `portWord` of each. -/
theorem channelStepsRunOnEveryOperand : Obligations.ChannelStepsRunOnEveryOperand := by
  intro s x src mask rest v hv hscript
  refine ⟨_, portWord v (Config.freeChannelSource s.draws v),
    portWord mask.value (Config.freeChannelMask s.draws mask.value), step_bindXor hv hscript, rfl,
    lookup_insertVar_same _ _ _, fun y hy => lookup_insertVar_other _ _ hy, ?_, ?_, portWord_free _, ?_, ?_,
    portWord_free _, ?_⟩
  · rintro n rfl hn
    exact portWord_word _ hn
  · rintro cs rfl hcs
    exact portWord_chars _ hcs
  · rintro m rfl hm
    exact portWord_word _ hm
  · rintro cs rfl hcs
    exact portWord_chars _ hcs
  · exact countDraw_draws_eq_iff.trans (by simp [Option.isSome_iff_ne_none])

/-- A channel-error step with both words stated binds their XOR and draws nothing. -/
theorem step_bindXor_stated {s : State} {x src : Var} {mask : Literal} {rest : List HostAction} {v : HostValue} {a b : Nat}
    (hv : lookup src s.vars = some v) (hscript : s.script = .bindXor x src mask :: rest)
    (ha : statedWord 7 v = some a) (hb : statedWord 7 mask.value = some b) :
    step s = .next (State.bindVar { s with script := rest } x (.word (BitVec.ofNat 7 a ^^^ BitVec.ofNat 7 b).toNat)) := by
  rw [step_bindXor hv hscript, channelWord, portWord_stated _ ha, portWord_stated _ hb, ha, hb]
  rfl

/-- Settles O45: a step of either form ends in one `bindVar`, a string mask being the sequence of its word (R43). -/
theorem scriptLiteralAndChannelSteps : Obligations.ScriptLiteralAndChannelSteps := by
  intro s x rest
  refine ⟨fun l hscript => ?_, fun src n m hv hn hm hscript => ?_⟩
  · exact ⟨_, step_action hscript, lookup_insertVar_same _ _ _, rfl, fun y hy => lookup_insertVar_other _ _ hy⟩
  · have hstep : step s = .next
        (State.bindVar { s with script := rest } x (.word (BitVec.ofNat 7 n ^^^ BitVec.ofNat 7 m).toNat)) := by
      rcases hscript with hscript | hscript
      · exact step_bindXor_stated hv hscript (statedWord_word hn) (statedWord_word hm)
      · rw [step_bindXor_stated hv hscript (statedWord_word hn) (statedWord_chars (valid_seqOf _)), ofNat_wordOf_seqOf]
    exact ⟨_, hstep, lookup_insertVar_same _ _ _, rfl, fun y hy => lookup_insertVar_other _ _ hy⟩

end Sys2Proof.Machine
end

section
/-! PROOFS. ENCODE: its steps, its closed form as rows of a table, and its valid codewords (R60, R61, R62). -/

namespace Sys2Proof.Machine

/-- ENCODE in every state: the payload is driven, the codeword is returned. -/
theorem exec_encodePort (d : W4) (s : State) :
    exec (.encodePort d) s = .next ((s.driveEncoder d).returning (.word (ENCODE d).toNat)) := rfl

/-- SYNDROME in every state: the codeword is driven, its syndrome is returned. -/
theorem exec_syndromePort (c : W7) (s : State) :
    exec (.syndromePort c) s = .next ((s.driveSyndrome c).returning (.word (SYNDROME c).toNat)) := rfl

/-! ### The order of the parity indices (R60) -/

/-- Writing two different bits in either order. -/
theorem setBit_comm (c : W7) {i j : Nat} (hij : i ≠ j) (a b : Bool) :
    setBit (setBit c i a) j b = setBit (setBit c j b) i a := by
  apply BitVec.eq_of_getLsbD_eq
  intro k hk
  simp only [getLsbD_setBit, hk, and_true]
  by_cases hik : i = k
  · subst hik
    simp [hij.symm]
  · simp [hik]

/-- The XOR over a set of bits does not see a bit written outside the set. -/
theorem xorOver_setBit_of_notMem (c : W7) {i : Nat} {is : List Nat} (hi : i ∉ is) (b : Bool) :
    xorOver (setBit c i b) is = xorOver c is := by
  apply List.foldl_ext
  intro acc j hj
  have hij : i ≠ j := fun h => hi (h ▸ hj)
  simp only [getLsbD_setBit, hij, false_and, if_false]

/-- R44: a parity position lies in its own covering set only. -/
theorem parityIndex_notMem_coveringSet :
    ∀ p ∈ parityIndices, ∀ q ∈ parityIndices, p ≠ q → p ∉ coveringSet q := by decide

/-- Filling one parity bit does not change what another is filled with. -/
theorem fillParity_comm {p q : Nat} (hp : p ∈ parityIndices) (hq : q ∈ parityIndices) (c : W7) :
    fillParity (fillParity c p) q = fillParity (fillParity c q) p := by
  rcases eq_or_ne p q with rfl | hpq
  · rfl
  · have hp_notMem := parityIndex_notMem_coveringSet p hp q hq hpq
    have hq_notMem := parityIndex_notMem_coveringSet q hq p hp hpq.symm
    simp only [fillParity, xorOver_setBit_of_notMem _ hp_notMem, xorOver_setBit_of_notMem _ hq_notMem]
    exact setBit_comm c hpq _ _

theorem encodeInOrder_of_perm {ps : List Nat} (h : ps.Perm parityIndices) (d : W4) : encodeInOrder ps d = ENCODE d :=
  h.foldl_eq' (fun _ hp _ hq c => fillParity_comm (h.mem_iff.1 hp) (h.mem_iff.1 hq) c) (place d)

/-! ### The bits of a codeword (R60, R61, R62) -/

/-- R61: the codeword bit by bit, index 0 first. -/
theorem getLsbD_ENCODE (d : W4) {i : Nat} (hi : i < 7) : (ENCODE d).getLsbD i =
    [d.getLsbD 0 ^^ d.getLsbD 1 ^^ d.getLsbD 3, d.getLsbD 0 ^^ d.getLsbD 2 ^^ d.getLsbD 3, d.getLsbD 0,
      d.getLsbD 1 ^^ d.getLsbD 2 ^^ d.getLsbD 3, d.getLsbD 1, d.getLsbD 2, d.getLsbD 3].getD i false := by
  rw [ENCODE_eq_closedCode, getLsbD_closedCode d hi]

/-- R70: the recomputed parity with its covering set written out as a condition on the index. -/
theorem recomputed_eq_foldl (c : W7) (p : Nat) : recomputed c p =
    ((List.range 7).filter fun i => ((i + 1) &&& (p + 1)) != 0 && i != p).foldl (fun acc i => acc ^^ c.getLsbD i) false := by
  simp only [recomputed, xorOver, coveringSet, List.filter_filter, Bool.and_comm]

/-- R62: every parity check of a codeword holds: the parity bit cancels its three data bits. -/
theorem mismatch_ENCODE (d : W4) {p : Nat} (hp : p ∈ parityIndices) : mismatch (ENCODE d) p = false := by
  have hcancel : ∀ x y z : Bool, (x ^^ y ^^ z ^^ x ^^ y ^^ z) = false := by decide
  have hcases : p = 0 ∨ p = 1 ∨ p = 3 := by simpa [parityIndices] using hp
  rcases hcases with rfl | rfl | rfl
  · simp (disch := decide) only [mismatch_zero, closedS1, getLsbD_ENCODE]
    exact hcancel _ _ _
  · simp (disch := decide) only [mismatch_one, closedS2, getLsbD_ENCODE]
    exact hcancel _ _ _
  · simp (disch := decide) only [mismatch_three, closedS4, getLsbD_ENCODE]
    exact hcancel _ _ _

/-- R60: each parity bit is the XOR of its covering set without itself. -/
theorem recomputed_ENCODE (d : W4) {p : Nat} (hp : p ∈ parityIndices) :
    recomputed (ENCODE d) p = (ENCODE d).getLsbD p := by
  simpa [mismatch] using mismatch_ENCODE d hp

theorem SYNDROME_ENCODE (d : W4) : SYNDROME (ENCODE d) = 0 := by
  have hsum : errorPos (ENCODE d) = 0 := by
    simp (disch := decide) [errorPos, parityIndices, mismatch_ENCODE]
  rw [SYNDROME, hsum]
  rfl

theorem extract_ENCODE (d : W4) : extract (ENCODE d) = d := by
  apply BitVec.eq_of_getLsbD_eq
  intro k hk
  rw [getLsbD_extract _ hk]
  interval_cases k <;> exact getLsbD_ENCODE d (by decide)

theorem ENCODE_injective : Function.Injective ENCODE := Function.LeftInverse.injective extract_ENCODE

theorem ENCODE_corner_cases : ENCODE 0x0 = 0x00 ∧ ENCODE 0xF = 0x7F ∧ ENCODE 0xD = 0x66 := by decide

/-- Settles O1: the data bits stay in place, every parity check holds, and the parity fills commute. -/
theorem encodeFollowsItsThreeSteps : Obligations.EncodeFollowsItsThreeSteps := by
  intro d s
  obtain ⟨hzero, hones, hexample⟩ := ENCODE_corner_cases
  refine ⟨_, exec_encodePort d s, rfl, ⟨?_, ?_, ?_, ?_⟩, fun p hp => ?_, fun ps hps => encodeInOrder_of_perm hps d, rfl,
    ?_, ?_, ?_⟩
  iterate 4 exact getLsbD_ENCODE d (by decide)
  · exact (recomputed_ENCODE d hp).symm.trans (recomputed_eq_foldl _ p)
  · rintro rfl
    exact hzero
  · rintro rfl
    exact hones
  · rintro rfl
    exact hexample

/-- Settles O3: every parity check of a codeword holds, and `extract` reads the payload back. -/
theorem encodedWordsHaveSyndromeZeroAndDiffer : Obligations.EncodedWordsHaveSyndromeZeroAndDiffer := by
  intro d s
  refine ⟨_, _, exec_encodePort d s, exec_syndromePort _ _, SYNDROME_ENCODE d, ?_, extract_ENCODE d,
    fun d' h => ENCODE_injective h⟩
  simp [SYNDROME_ENCODE]

/-! ### Rows and linearity (R61) -/

theorem ENCODE_rows : ENCODE 0x1 = 0x07 ∧ ENCODE 0x2 = 0x19 ∧ ENCODE 0x4 = 0x2A ∧ ENCODE 0x8 = 0x4B := by decide

/-- R61: bit by bit, a codeword bit is the XOR of the payload bits whose rows have a 1 there. -/
theorem closedCode_eq_xor_rows (d : W4) :
    closedCode d = (if d.getLsbD 0 then 0x07#7 else 0) ^^^ (if d.getLsbD 1 then 0x19#7 else 0) ^^^
      (if d.getLsbD 2 then 0x2A#7 else 0) ^^^ (if d.getLsbD 3 then 0x4B#7 else 0) := by
  have hrow : ∀ (b : Bool) (w : W7) (i : Nat), (if b then w else 0).getLsbD i = (b && w.getLsbD i) := by
    intro b w i
    cases b <;> simp
  apply BitVec.eq_of_getLsbD_eq
  intro i hi
  simp only [getLsbD_closedCode d hi, BitVec.getLsbD_xor, hrow]
  interval_cases i <;> simp

/-- Each row comes in as often as its payload bit is 1 in `a` and in `b`, so ENCODE is linear. -/
theorem ENCODE_xor (a b : W4) : ENCODE (a ^^^ b) = ENCODE a ^^^ ENCODE b := by
  have hrow : ∀ (x y : Bool) (w : W7),
      (if (x ^^ y) then w else 0) = (if x then w else 0) ^^^ (if y then w else 0) := by
    intro x y w
    cases x <;> cases y <;> simp
  simp only [ENCODE_eq_closedCode, closedCode_eq_xor_rows, BitVec.getLsbD_xor, hrow]
  ac_rfl

/-- Settles O2, clause by clause. -/
theorem encodeClosedFormRowsAndLinearity : Obligations.EncodeClosedFormRowsAndLinearity := by
  intro a s
  refine ⟨?_, closedCode_eq_xor_rows a, ENCODE_rows, ENCODE_xor a, ENCODE_corner_cases.1⟩
  rw [exec_encodePort, ENCODE_eq_closedCode]
  rfl

end Sys2Proof.Machine
end

section
/-! PROOFS. SYNDROME: its integer sum, its linearity, and what it says of flipped codewords (R70, R71, R72). -/

namespace Sys2Proof.Machine

theorem resultOf_syndromePort (c : W7) (s : State) :
    resultOf (exec (.syndromePort c) s) = some (.word (SYNDROME c).toNat) := rfl

/-! ### The sum of the mismatches (R70, R71) -/

/-- R44: the covering set of a parity index is the recomputed one and the index itself. -/
theorem coveringSet_perm_recomputed : ∀ p ∈ parityIndices,
    ((coveringSet p).filter (· != p) ++ [p]).Perm (coveringSet p) := by decide

/-- R70: comparing the recomputed parity with the received bit is one XOR over the whole covering set. -/
theorem mismatch_eq_xorOver (c : W7) {p : Nat} (hp : p ∈ parityIndices) : mismatch c p = xorOver c (coveringSet p) :=
  calc mismatch c p
    _ = xorOver c ((coveringSet p).filter (· != p) ++ [p]) := by simp [mismatch, recomputed, xorOver]
    _ = xorOver c (coveringSet p) :=
      (coveringSet_perm_recomputed p hp).foldl_eq' (fun _ _ _ _ _ => Bool.xor_right_comm _ _ _) _

theorem errorPos_eq_sum (c : W7) : errorPos c =
    (if mismatch c 0 then 1 else 0) + (if mismatch c 1 then 2 else 0) + (if mismatch c 3 then 4 else 0) := by
  simp only [errorPos, parityIndices, List.foldl]
  cases mismatch c 0 <;> cases mismatch c 1 <;> cases mismatch c 3 <;> rfl

/-- R71: 1, 2 and 4 have pairwise-disjoint bits, so the sum has no carries. -/
theorem errorPos_eq_or (c : W7) : errorPos c =
    ((if closedS1 c then 1 else 0) ||| (if closedS2 c then 2 else 0) ||| (if closedS4 c then 4 else 0)) := by
  rw [errorPos_eq_sum, mismatch_zero, mismatch_one, mismatch_three]
  cases closedS1 c <;> cases closedS2 c <;> cases closedS4 c <;> rfl

/-- R70: each parity index adds at most once. -/
theorem errorPos_le (c : W7) : errorPos c ≤ 7 := by
  rw [errorPos_eq_sum]
  split_ifs <;> decide

theorem toNat_SYNDROME (c : W7) : (SYNDROME c).toNat = errorPos c :=
  Nat.mod_eq_of_lt (Nat.lt_succ_of_le (errorPos_le c))

theorem SYNDROME_corner_cases : SYNDROME 0x00 = 0 ∧ SYNDROME 0x7F = 0 ∧ SYNDROME 0x01 = 1 ∧ SYNDROME 0x40 = 7 ∧
    SYNDROME 0x66 = 0 ∧ SYNDROME 0x4F = 3 := by decide

/-- Settles O4: the sum of the mismatches, each the XOR of a whole covering set. -/
theorem syndromeSumsItsMismatches : Obligations.SyndromeSumsItsMismatches := by
  intro c s
  obtain ⟨h00, h7F, h01, h40, h66, h4F⟩ := SYNDROME_corner_cases
  refine ⟨_, exec_syndromePort c s, rfl, ?_, fun p hp => mismatch_eq_xorOver c hp, checkNets_eq c,
    SYNDROME_eq_closedSyndrome c, Nat.le_of_lt_succ (SYNDROME c).isLt, errorPos_le c, ?_, ?_, ?_, ?_, ?_, ?_⟩
  · intro recomputedAt
    have hmismatch : ∀ p, mismatch c p = true ↔ recomputedAt p ≠ c.getLsbD p := fun p => by
      rw [mismatch, recomputed_eq_foldl, Bool.xor_iff_ne]
    simp only [← hmismatch]
    exact (toNat_SYNDROME c).trans (errorPos_eq_sum c)
  · rintro rfl
    exact h00
  · rintro rfl
    exact h7F
  · rintro rfl
    exact h01
  · rintro rfl
    exact h40
  · rintro rfl
    exact h66
  · rintro rfl
    exact h4F

/-- Settles O5: the returned sum is the carry-free OR, and both are the concatenation. -/
theorem syndromeSumEqualsOrEqualsConcatenation : Obligations.SyndromeSumEqualsOrEqualsConcatenation := by
  intro c s
  refine ⟨_, exec_syndromePort c s, ?_, errorPos_eq_or c, ?_⟩
  · rw [State.returning_result, toNat_SYNDROME]
  · rw [← SYNDROME_eq_closedSyndrome, toNat_SYNDROME]

/-! ### Linearity and the columns (R72, items 1 and 2) -/

/-- R41: the parity index of C(2^k). -/
theorem two_pow_sub_one_mem_parityIndices : ∀ k < 3, 2 ^ k - 1 ∈ parityIndices := by decide

/-- R70: bit k of the syndrome is the parity check of the covering set C(2^k). -/
theorem getLsbD_SYNDROME (c : W7) {k : Nat} (hk : k < 3) : (SYNDROME c).getLsbD k = mismatch c (2 ^ k - 1) := by
  rw [SYNDROME_eq_closedSyndrome]
  simp only [closedSyndrome, BitVec.getLsbD_append]
  interval_cases k
  · simp [mismatch_zero]
  · simp [mismatch_one]
  · simp [mismatch_three]

/-- The XOR over a set of bits is linear in the word. -/
theorem xorOver_xor (a b : W7) (is : List Nat) : xorOver (a ^^^ b) is = (xorOver a is ^^ xorOver b is) := by
  have hfold : ∀ x y : Bool, is.foldl (fun acc i => acc ^^ (a ^^^ b).getLsbD i) (x ^^ y) =
      (is.foldl (fun acc i => acc ^^ a.getLsbD i) x ^^ is.foldl (fun acc i => acc ^^ b.getLsbD i) y) := by
    induction is with
    | nil => exact fun _ _ => rfl
    | cons i is ih =>
      intro x y
      simp only [List.foldl_cons, ← ih, BitVec.getLsbD_xor]
      rw [Bool.xor_assoc, Bool.xor_left_comm y, ← Bool.xor_assoc]
  exact hfold false false

theorem SYNDROME_xor (a b : W7) : SYNDROME (a ^^^ b) = SYNDROME a ^^^ SYNDROME b := by
  apply BitVec.eq_of_getLsbD_eq
  intro k hk
  have hp := two_pow_sub_one_mem_parityIndices k hk
  simp only [BitVec.getLsbD_xor, getLsbD_SYNDROME _ hk, mismatch_eq_xorOver _ hp, xorOver_xor]

/-- The columns: the syndrome of the word with the one bit `i`. -/
theorem toNat_SYNDROME_column : ∀ i < 7, (SYNDROME (1#7 <<< i)).toNat = i + 1 := by decide

/-- R44: index `i` lies in C(2^k) iff bit k of its position is 1. -/
theorem mem_coveringSet_two_pow {i : Nat} (hi : i < 7) (k : Nat) :
    i ∈ coveringSet (2 ^ k - 1) ↔ (i + 1).testBit k = true := by
  rw [mem_coveringSet, Nat.sub_add_cancel Nat.one_le_two_pow, Nat.and_two_pow]
  simp [hi]

/-- Flipping one bit adds its column to the syndrome. -/
theorem toNat_SYNDROME_flipBit (c : W7) {i : Nat} (hi : i < 7) :
    (SYNDROME (flipBit c i)).toNat = (SYNDROME c).toNat ^^^ (i + 1) := by
  rw [flipBit, SYNDROME_xor, BitVec.toNat_xor, toNat_SYNDROME_column i hi]

/-- Flipping bits one after the other adds their columns. -/
theorem toNat_SYNDROME_foldl_flipBit {is : List Nat} (his : ∀ i ∈ is, i < 7) (c : W7) :
    (SYNDROME (is.foldl flipBit c)).toNat = is.foldl (fun acc i => acc ^^^ (i + 1)) (SYNDROME c).toNat := by
  induction is generalizing c with
  | nil => rfl
  | cons i is ih =>
    obtain ⟨hi, his⟩ := List.forall_mem_cons.1 his
    rw [List.foldl_cons, List.foldl_cons, ih his, toNat_SYNDROME_flipBit c hi]

theorem getLsbD_flipBit (c : W7) (i : Nat) {j : Nat} (hj : j < 7) :
    (flipBit c i).getLsbD j = (c.getLsbD j ^^ decide (i = j)) := by
  have hone : (1#7 <<< i).getLsbD j = decide (i = j) := by
    have hmask : 1#7 <<< i = BitVec.twoPow 7 i := rfl
    rw [hmask, BitVec.getLsbD_twoPow]
    by_cases hij : i = j
    · simp [hij, hj]
    · simp [hij]
  rw [flipBit, BitVec.getLsbD_xor, hone]

theorem getLsbD_foldl_flipBit {is : List Nat} (hnodup : is.Nodup) (c : W7) {j : Nat} (hj : j < 7) :
    (is.foldl flipBit c).getLsbD j = (c.getLsbD j ^^ decide (j ∈ is)) := by
  induction is generalizing c with
  | nil => simp
  | cons i is ih =>
    obtain ⟨hi, his⟩ := List.nodup_cons.1 hnodup
    rw [List.foldl_cons, ih his, getLsbD_flipBit c i hj]
    by_cases hij : i = j
    · subst hij
      simp [hi]
    · simp [hij, Ne.symm hij]

/-- A word is the zero word with its 1 bits flipped. -/
theorem foldl_flipBit_ones (c : W7) : ((List.range 7).filter fun i => c.getLsbD i).foldl flipBit 0 = c := by
  apply BitVec.eq_of_getLsbD_eq
  intro j hj
  rw [getLsbD_foldl_flipBit (List.nodup_range.filter _) 0 hj]
  simp [hj]

/-- R72: the syndrome is the XOR of the positions of all 1 bits. -/
theorem toNat_SYNDROME_eq_xor_positions (c : W7) : (SYNDROME c).toNat =
    ((List.range 7).filter fun i => c.getLsbD i).foldl (fun acc i => acc ^^^ (i + 1)) 0 := by
  have hlt : ∀ i ∈ (List.range 7).filter fun i => c.getLsbD i, i < 7 := fun i hi =>
    List.mem_range.1 (List.mem_filter.1 hi).1
  conv_lhs => rw [← foldl_flipBit_ones c, toNat_SYNDROME_foldl_flipBit hlt]
  rfl

/-! ### The words of one syndrome (R72, item 3) -/

/-- Where every check holds, each parity bit is the one ENCODE fills in for the extracted payload. -/
theorem ENCODE_extract {c : W7} (h : SYNDROME c = 0) : ENCODE (extract c) = c := by
  have hcheck : ∀ k < 3, mismatch c (2 ^ k - 1) = false := fun k hk => by
    rw [← getLsbD_SYNDROME c hk, h]
    exact BitVec.getLsbD_zero
  have hs1 : closedS1 c = false := (mismatch_zero c).symm.trans (hcheck 0 (by decide))
  have hs2 : closedS2 c = false := (mismatch_one c).symm.trans (hcheck 1 (by decide))
  have hs4 : closedS4 c = false := (mismatch_three c).symm.trans (hcheck 2 (by decide))
  have hparity : ∀ p x y z : Bool, (p ^^ x ^^ y ^^ z) = false → (x ^^ y ^^ z) = p := by decide
  apply BitVec.eq_of_getLsbD_eq
  intro i hi
  rw [getLsbD_ENCODE _ hi]
  simp (disch := decide) only [getLsbD_extract]
  interval_cases i
  · exact hparity _ _ _ _ hs1
  · exact hparity _ _ _ _ hs2
  · rfl
  · exact hparity _ _ _ _ hs4
  iterate 3 rfl

theorem SYNDROME_eq_zero_iff {c : W7} : SYNDROME c = 0 ↔ ∃ d, c = ENCODE d := by
  constructor
  · exact fun h => ⟨extract c, (ENCODE_extract h).symm⟩
  · rintro ⟨d, rfl⟩
    exact SYNDROME_ENCODE d

theorem SYNDROME_flipMask : ∀ v : W3, SYNDROME (flipMask v) = v := by decide

/-- The words of one syndrome are the codewords, all changed by the same mask. -/
theorem SYNDROME_eq_iff {c : W7} {v : W3} : SYNDROME c = v ↔ ∃ d, c = ENCODE d ^^^ flipMask v := by
  have hzero : SYNDROME c = v ↔ SYNDROME (c ^^^ flipMask v) = 0 := by
    rw [SYNDROME_xor, SYNDROME_flipMask]
    exact BitVec.xor_eq_zero_iff.symm
  rw [hzero, SYNDROME_eq_zero_iff]
  refine exists_congr fun d => ⟨fun h => ?_, fun h => ?_⟩
  · rw [← h, BitVec.xor_assoc, BitVec.xor_self, BitVec.xor_zero]
  · rw [h, BitVec.xor_assoc, BitVec.xor_self, BitVec.xor_zero]

/-- R72: one word of the syndrome `v` for each payload. -/
theorem syndrome_words_perm (v : W3) :
    ((List.range 128).filter fun n => (SYNDROME (BitVec.ofNat 7 n)).toNat == v.toNat).Perm
      ((List.finRange 16).map fun d => (ENCODE (BitVec.ofFin d) ^^^ flipMask v).toNat) := by
  have hinj : Function.Injective fun d : Fin 16 => (ENCODE (BitVec.ofFin d) ^^^ flipMask v).toNat := fun a b h =>
    congrArg BitVec.toFin (ENCODE_injective ((BitVec.xor_left_inj _).1 (BitVec.eq_of_toNat_eq h)))
  refine (List.perm_ext_iff_of_nodup (List.nodup_range.filter _) ((List.nodup_finRange 16).map hinj)).2 fun n => ?_
  simp only [List.mem_filter, List.mem_range, List.mem_map, List.mem_finRange, true_and, beq_iff_eq, BitVec.toNat_inj,
    SYNDROME_eq_iff]
  constructor
  · rintro ⟨hn, d, hd⟩
    exact ⟨d.toFin, (congrArg BitVec.toNat hd).symm.trans (Nat.mod_eq_of_lt hn)⟩
  · rintro ⟨d, rfl⟩
    exact ⟨BitVec.isLt _, BitVec.ofFin d, BitVec.ofNat_toNat _ _⟩

/-! ### Flipped codewords (R72, items 4 and 5) -/

theorem toNat_SYNDROME_one_error (d : W4) {i : Nat} (hi : i < 7) :
    (SYNDROME (flipBit (ENCODE d) i)).toNat = i + 1 := by
  rw [toNat_SYNDROME_flipBit _ hi, SYNDROME_ENCODE]
  exact Nat.zero_xor _

theorem toNat_SYNDROME_two_errors (d : W4) {i j : Nat} (hi : i < 7) (hj : j < 7) :
    (SYNDROME (flipBit (flipBit (ENCODE d) i) j)).toNat = (i + 1) ^^^ (j + 1) := by
  rw [toNat_SYNDROME_flipBit _ hj, toNat_SYNDROME_one_error d hi]

/-- The XOR of two positions is neither 0 nor one of the two. -/
theorem xor_positions_ne {i j : Nat} (hij : i ≠ j) :
    (i + 1) ^^^ (j + 1) ≠ 0 ∧ (i + 1) ^^^ (j + 1) ≠ i + 1 ∧ (i + 1) ^^^ (j + 1) ≠ j + 1 := by
  simp [hij]

/-- Settles O6, item by item. -/
theorem syndromeProperties : Obligations.SyndromeProperties := by
  intro s
  simp only [resultOf_syndromePort, Option.some.injEq, HostValue.word.injEq]
  refine ⟨fun i hi => ⟨toNat_SYNDROME_column i hi, fun k hk => ⟨?_, mem_coveringSet_two_pow hi k⟩⟩,
    fun a b => by rw [SYNDROME_xor], toNat_SYNDROME_eq_xor_positions, fun c => ?_, fun v hv => ?_,
    fun d i hi => toNat_SYNDROME_one_error d hi,
    fun d i hi j hj hij => ⟨toNat_SYNDROME_two_errors d hi hj, xor_positions_ne hij⟩⟩
  · rw [mem_coveringSet_two_pow hi k, ← toNat_SYNDROME_column i hi, BitVec.testBit_toNat]
  · rw [← SYNDROME_eq_zero_iff]
    exact BitVec.toNat_inj (y := 0#3)
  · exact (syndrome_words_perm (BitVec.ofNatLT v hv)).length_eq

end Sys2Proof.Machine
end

section
/-! PROOFS. DECODE: its steps and corner cases, and what the rule gives for any error (R80, R81). -/

namespace Sys2Proof.Machine

/-- DECODE in every state: the codeword is driven, its payload is returned. -/
theorem exec_decodePort (c : W7) (s : State) :
    exec (.decodePort c) s = .next ((s.driveDecoder c).returning (.word (DECODE c).toNat)) := rfl

/-- `decode` on the string of a word, in every state: the word is driven, its payload's string is returned. -/
theorem exec_decodeCall_seqOf (c : W7) (s : State) :
    exec (.decodeCall (.chars (seqOf c))) s = .next ((s.driveDecoder c).returning (.chars (seqOf (DECODE c)))) := by
  change execDecodeCall (.chars (seqOf c)) s = _
  rw [execDecodeCall_chars, if_pos (valid_seqOf c), ofNat_wordOf_seqOf]

/-! ### The steps of R80 -/

theorem flipMask_eq_ite (syn : W3) : flipMask syn = if syn ≠ 0 then 1#7 <<< (syn.toNat - 1) else 0 := by
  simp [flipMask]

theorem extract_xor (a b : W7) : extract (a ^^^ b) = extract a ^^^ extract b := by
  apply BitVec.eq_of_getLsbD_eq
  intro k hk
  simp only [BitVec.getLsbD_xor, getLsbD_extract _ hk]

/-- R80: the payload bits of the flip mask are what the correction changes in the extracted payload. -/
theorem DECODE_eq_extract_xor (c : W7) : DECODE c = extract c ^^^ extract (flipMask (SYNDROME c)) :=
  extract_xor c _

/-- R80's corner cases: a syndrome that names a data position flips that payload bit, any other flips none. -/
theorem extract_flipMask :
    extract (flipMask 0) = 0 ∧ extract (flipMask 1) = 0 ∧ extract (flipMask 2) = 0 ∧ extract (flipMask 4) = 0 ∧
      extract (flipMask 3) = 1 ∧ extract (flipMask 5) = 2 ∧ extract (flipMask 6) = 4 ∧ extract (flipMask 7) = 8 := by
  decide

theorem DECODE_of_SYNDROME {c : W7} {v : W3} {w : W4} (hv : extract (flipMask v) = w) (h : SYNDROME c = v) :
    DECODE c = extract c ^^^ w := by
  rw [DECODE_eq_extract_xor, h, hv]

/-- R80's worked example. -/
theorem DECODE_4F : SYNDROME 0x4F = 3 ∧ correct 0x4F = 0x4B ∧ DECODE 0x4F = 0x8 := by decide

/-- Settles O7: the correction XORs one entry of the table of flipped payload bits into the extracted payload. -/
theorem decodeFlipsAndExtracts : Obligations.DecodeFlipsAndExtracts := by
  intro c s
  obtain ⟨h0, h1, h2, h4, h3, h5, h6, h7⟩ := extract_flipMask
  refine ⟨_, exec_decodePort c s, rfl, ⟨fun k hk => ?_, DECODE_eq_closedData c, ?_, DECODE_of_SYNDROME h3,
    DECODE_of_SYNDROME h5, DECODE_of_SYNDROME h6, DECODE_of_SYNDROME h7, ?_⟩, ?_⟩
  · rw [← flipMask_eq_ite]
    exact getLsbD_extract (correct c) hk
  · have hkept : ∀ {v : W3}, extract (flipMask v) = 0 → SYNDROME c = v → DECODE c = extract c := fun hv h =>
      (DECODE_of_SYNDROME hv h).trans BitVec.xor_zero
    rintro (h | h | h | h)
    · exact hkept h0 h
    · exact hkept h1 h
    · exact hkept h2 h
    · exact hkept h4 h
  · exact Nat.sub_le_of_le_add (Nat.le_of_lt_succ (SYNDROME c).isLt)
  · rintro rfl
    exact DECODE_4F

/-- Settles O8: DECODE and `decode` are the closed form on every word, whatever its errors. -/
theorem decodeSignalsNothing : Obligations.DecodeSignalsNothing := by
  refine ⟨fun d e s => ?_, fun c s => ⟨_, exec_decodeCall_seqOf c s, ?_⟩⟩
  · rw [exec_decodePort, DECODE_eq_closedData]
    rfl
  · rw [State.returning_result, DECODE_eq_closedData]

end Sys2Proof.Machine
end

section
/-! PROOFS. Errors by their weight: the distance of the valid codewords, and which errors DECODE corrects (R82 to R85). -/

namespace Sys2Proof.Machine

/-! ### Words of weight at most 2 -/

/-- A word of weight at most 1 is the flip mask of its own syndrome. -/
theorem eq_flipMask_of_weight_le_one {e : W7} (h : weight e ≤ 1) : e = flipMask (SYNDROME e) := by
  have hcolumn : ∀ i < 7, flipBit 0 i = flipMask (SYNDROME (flipBit 0 i)) := by decide
  have hones := foldl_flipBit_ones e
  rcases Nat.le_one_iff_eq_zero_or_eq_one.1 h with h | h
  · rw [List.length_eq_zero_iff.1 h] at hones
    subst hones
    decide
  · obtain ⟨i, hi⟩ := List.length_eq_one_iff.1 h
    have hmem : i ∈ (List.range 7).filter fun i => e.getLsbD i := by simp [hi]
    rw [hi] at hones
    subst hones
    exact hcolumn i (List.mem_range.1 (List.mem_filter.1 hmem).1)

theorem weight_le_one_iff {e : W7} : weight e ≤ 1 ↔ e = flipMask (SYNDROME e) :=
  ⟨eq_flipMask_of_weight_le_one, fun h => h ▸ weight_flipMask_le _⟩

/-- The positions of two different 1 bits do not cancel. -/
theorem SYNDROME_ne_zero_of_weight_two {e : W7} (h : weight e = 2) : SYNDROME e ≠ 0 := by
  obtain ⟨i, j, hij⟩ := List.length_eq_two.1 h
  have hnodup : [i, j].Nodup := hij ▸ List.nodup_range.filter _
  have hne : i ≠ j := by simpa using hnodup
  intro hzero
  have hpositions := toNat_SYNDROME_eq_xor_positions e
  rw [hij, hzero] at hpositions
  exact (xor_positions_ne hne).1 (by simpa using hpositions.symm)

/-- R82: the least weight of a nonzero valid codeword. -/
theorem three_le_weight_of_SYNDROME_eq_zero {e : W7} (hsyn : SYNDROME e = 0) (hne : e ≠ 0) : 3 ≤ weight e := by
  have hgt : ¬weight e ≤ 1 := fun h => hne ((eq_flipMask_of_weight_le_one h).trans (by rw [hsyn]; rfl))
  have htwo : weight e ≠ 2 := fun h => SYNDROME_ne_zero_of_weight_two h hsyn
  omega

/-! ### The valid codewords (R82) -/

/-- R82's list of valid codewords, in the order of their payloads. -/
def validCodewords : List W7 :=
  [0x00, 0x07, 0x19, 0x1E, 0x2A, 0x2D, 0x33, 0x34, 0x4B, 0x4C, 0x52, 0x55, 0x61, 0x66, 0x78, 0x7F]

theorem validCodewords_eq : validCodewords = (List.finRange 16).map fun d => ENCODE (BitVec.ofFin d) := by decide

theorem mem_validCodewords {c : W7} : c ∈ validCodewords ↔ ∃ d, ENCODE d = c := by
  rw [validCodewords_eq, List.mem_map]
  constructor
  · rintro ⟨d, -, h⟩
    exact ⟨_, h⟩
  · rintro ⟨d, h⟩
    exact ⟨d.toFin, List.mem_finRange _, h⟩

theorem count_weight_validCodewords :
    (validCodewords.map weight).count 0 = 1 ∧ (validCodewords.map weight).count 3 = 7 ∧
      (validCodewords.map weight).count 4 = 7 ∧ (validCodewords.map weight).count 7 = 1 := by decide

/-- R82: the difference of two codewords is a codeword, so it is no lighter than the lightest nonzero one. -/
theorem three_le_weight_ENCODE_xor {a b : W4} (h : ENCODE a ≠ ENCODE b) : 3 ≤ weight (ENCODE a ^^^ ENCODE b) := by
  refine three_le_weight_of_SYNDROME_eq_zero ?_ (fun hzero => h (BitVec.xor_eq_zero_iff.1 hzero))
  rw [← ENCODE_xor]
  exact SYNDROME_ENCODE _

/-- R70: the word returned is 0 exactly where the syndrome is. -/
theorem resultOf_syndromePort_eq_zero_iff (c : W7) (s : State) :
    resultOf (exec (.syndromePort c) s) = some (.word 0) ↔ SYNDROME c = 0 := by
  rw [resultOf_syndromePort, Option.some.injEq, HostValue.word.injEq]
  exact BitVec.toNat_inj (y := 0#3)

/-- Settles O9: the listed words are ENCODE's outputs in order, and their distance is the least weight. -/
theorem validCodewordsWeightsAndDistance : Obligations.ValidCodewordsWeightsAndDistance := by
  obtain ⟨hzero, hthree, hfour, hseven⟩ := count_weight_validCodewords
  refine ⟨fun c s => ?_, fun c => mem_validCodewords, hzero, hthree, hfour, hseven,
    fun a b => three_le_weight_ENCODE_xor⟩
  rw [resultOf_syndromePort_eq_zero_iff, SYNDROME_eq_zero_iff]
  exact (exists_congr fun d => eq_comm).trans mem_validCodewords.symm

/-! ### Which errors DECODE corrects (R83, R84, R85) -/

/-- R85: the corrected word is always a valid codeword. -/
theorem SYNDROME_correct (c : W7) : SYNDROME (correct c) = 0 := by
  rw [correct, SYNDROME_xor, SYNDROME_flipMask]
  exact BitVec.xor_self

/-- The syndrome of a received word is that of its error. -/
theorem SYNDROME_ENCODE_xor (d : W4) (e : W7) : SYNDROME (ENCODE d ^^^ e) = SYNDROME e := by
  rw [SYNDROME_xor, SYNDROME_ENCODE]
  exact BitVec.zero_xor

/-- The decoder's error is that of the error word alone, whatever the payload. -/
theorem DECODE_ENCODE_xor (d : W4) (e : W7) : DECODE (ENCODE d ^^^ e) = d ^^^ DECODE e := by
  rw [DECODE_eq_extract_xor, DECODE_eq_extract_xor, SYNDROME_ENCODE_xor, extract_xor, extract_ENCODE, BitVec.xor_assoc]

/-- The one codeword with payload 0 is the zero word, so an error is corrected iff it is the mask DECODE flips. -/
theorem DECODE_eq_zero_iff {e : W7} : DECODE e = 0 ↔ weight e ≤ 1 :=
  calc DECODE e = 0
    _ ↔ ENCODE (DECODE e) = ENCODE 0 := ENCODE_injective.eq_iff.symm
    _ ↔ correct e = 0 := by rw [DECODE, ENCODE_extract (SYNDROME_correct e), ENCODE_corner_cases.1]
    _ ↔ e = flipMask (SYNDROME e) := BitVec.xor_eq_zero_iff
    _ ↔ weight e ≤ 1 := weight_le_one_iff.symm

/-- R85: the payload comes back iff at most one bit is flipped. -/
theorem DECODE_ENCODE_xor_eq_iff {d : W4} {e : W7} : DECODE (ENCODE d ^^^ e) = d ↔ weight e ≤ 1 :=
  calc DECODE (ENCODE d ^^^ e) = d
    _ ↔ d ^^^ DECODE e = d ^^^ 0#4 := by rw [DECODE_ENCODE_xor, BitVec.xor_zero]
    _ ↔ DECODE e = 0 := BitVec.xor_right_inj d
    _ ↔ weight e ≤ 1 := DECODE_eq_zero_iff

theorem DECODE_ENCODE (d : W4) : DECODE (ENCODE d) = d := by
  simpa using (DECODE_ENCODE_xor_eq_iff (d := d) (e := 0)).2 (by decide)

theorem weight_column_le : ∀ k < 7, weight (1#7 <<< k) ≤ 1 := by decide

theorem DECODE_flipBit_ENCODE (d : W4) {k : Nat} (hk : k < 7) : DECODE (flipBit (ENCODE d) k) = d :=
  DECODE_ENCODE_xor_eq_iff.2 (weight_column_le k hk)

/-- DECODE of any word that decodes to `d`, in every state. -/
theorem exec_decodePort_of_DECODE {c : W7} {d : W4} (h : DECODE c = d) (s : State) :
    ∃ u, exec (.decodePort c) s = .next u ∧ u.dataOut = d ∧ u.result = some (.word d.toNat) :=
  ⟨_, exec_decodePort c s, h, by rw [State.returning_result, h]⟩

/-- Settles O10: the payload comes back from its codeword. -/
theorem roundTripGivesThePayloadBack : Obligations.RoundTripGivesThePayloadBack := by
  intro d s
  obtain ⟨u, hu⟩ := exec_decodePort_of_DECODE (DECODE_ENCODE d) _
  exact ⟨_, u, exec_encodePort d s, hu⟩

/-- Settles O11: one flipped bit is an error of weight 1. -/
theorem everySingleBitErrorIsCorrected : Obligations.EverySingleBitErrorIsCorrected := by
  intro d k s hk
  obtain ⟨u, hu⟩ := exec_decodePort_of_DECODE (DECODE_flipBit_ENCODE d hk) _
  exact ⟨_, u, exec_encodePort d s, hu⟩

/-- A word without a mismatch is left as it is. -/
theorem correct_of_SYNDROME_eq_zero {c : W7} (h : SYNDROME c = 0) : correct c = c := by
  rw [correct, h]
  exact BitVec.xor_zero

/-- Settles O12: the payload drops out, so each clause is about the error word alone. -/
theorem payloadComesBackIffAtMostOneBitFlipped : Obligations.PayloadComesBackIffAtMostOneBitFlipped := by
  intro d e s
  have hiff : DECODE (ENCODE d ^^^ e) = d ↔ weight e ≤ 1 := DECODE_ENCODE_xor_eq_iff
  refine ⟨_, exec_decodePort _ s, ?_, hiff, SYNDROME_correct _, fun htwo => ?_, fun _ hvalid => ?_⟩
  · rw [← hiff, State.returning_result, Option.some.injEq, HostValue.word.injEq, BitVec.toNat_inj]
  · rw [SYNDROME_ENCODE_xor]
    exact SYNDROME_ne_zero_of_weight_two htwo
  · have hzero := SYNDROME_eq_zero_iff.2 hvalid
    exact ⟨hzero, correct_of_SYNDROME_eq_zero hzero⟩

end Sys2Proof.Machine
end

section
/-! PROOFS. Errors on strings: a flipped element is a flipped bit (R43, R84). -/

namespace Sys2Proof.Machine

theorem seqOf_injective {n : Nat} : Function.Injective (seqOf (n := n)) :=
  Function.LeftInverse.injective (g := fun cs => BitVec.ofNat n (wordOf cs)) ofNat_wordOf_seqOf

/-- Flipping element `k` of a word's sequence flips bit `k` of the word. -/
theorem flipChar_seqOf (c : W7) (k : Nat) : flipChar (seqOf c) k = seqOf (flipBit c k) := by
  have hchar : ∀ b : Bool, (if charOf b = '0' then '1' else '0') = charOf (!b) := by decide
  apply List.ext_getElem?
  intro i
  rw [flipChar, List.getElem?_modify]
  by_cases hi : i < 7
  · rw [seqOf_getElem? _ hi, seqOf_getElem? _ hi, getLsbD_flipBit c k hi]
    by_cases hki : k = i
    · simp [hki, hchar]
    · simp [hki]
  · rw [List.getElem?_eq_none (by simpa using hi), List.getElem?_eq_none (by simpa using hi)]
    rfl

theorem flipBit_ne (c : W7) {k : Nat} (hk : k < 7) : flipBit c k ≠ c := by
  intro h
  have hbit := getLsbD_flipBit c k hk
  rw [h] at hbit
  simp at hbit

/-- `decode` of the string of a word whose payload is a binary string's word returns that string. -/
theorem resultOf_decodeCall_seqOf {cs : List Char} (hcs : valid cs 4 = true) {c : W7}
    (hc : DECODE c = BitVec.ofNat 4 (wordOf cs)) (s : State) :
    resultOf (exec (.decodeCall (.chars (seqOf c))) s) = some (.chars cs) := by
  obtain ⟨hlength, hbinary⟩ : cs.length = 4 ∧ cs.all isBinary = true := by simpa [valid] using hcs
  have hseq : seqOf (BitVec.ofNat 4 (wordOf cs)) = cs := hlength ▸ seqOf_ofNat_wordOf hbinary
  rw [exec_decodeCall_seqOf, hc, hseq]
  rfl

/-- Settles O26: the codeword string is the string of ENCODE's word, and DECODE corrects its one flipped bit. -/
theorem stringsSurviveAnySingleError : Obligations.StringsSurviveAnySingleError := by
  intro cs s hcs
  have hencode := execEncodeCall_chars cs s
  rw [if_pos hcs] at hencode
  refine ⟨_, seqOf (ENCODE (BitVec.ofNat 4 (wordOf cs))), hencode, rfl, valid_seqOf _, fun s' =>
    ⟨resultOf_decodeCall_seqOf hcs (DECODE_ENCODE _) s', fun k hk => ?_⟩⟩
  rw [flipChar_seqOf]
  exact ⟨fun h => flipBit_ne _ hk (seqOf_injective h),
    resultOf_decodeCall_seqOf hcs (DECODE_flipBit_ENCODE _ hk) s'⟩

end Sys2Proof.Machine
end

section
/-! PROOFS. The host calls `encode` and `decode` (43_host_interface.md): validation, next states and what they return. -/

namespace Sys2Proof.Machine

/-! ### The two cases of a call, and the argument that is no sequence (R90 to R92, R95) -/

theorem exec_encodeCall_valid {cs : List Char} (h : valid cs 4 = true) (s : State) : exec (.encodeCall (.chars cs)) s =
    .next ((s.driveEncoder (BitVec.ofNat 4 (wordOf cs))).returning (.chars (seqOf (ENCODE (BitVec.ofNat 4 (wordOf cs)))))) :=
  (execEncodeCall_chars cs s).trans (by rw [if_pos h])

theorem exec_encodeCall_invalid {cs : List Char} (h : valid cs 4 = false) (s : State) :
    exec (.encodeCall (.chars cs)) s = .next s.raiseInvalidInput :=
  (execEncodeCall_chars cs s).trans (by simp [h])

theorem exec_decodeCall_valid {cs : List Char} (h : valid cs 7 = true) (s : State) : exec (.decodeCall (.chars cs)) s =
    .next ((s.driveDecoder (BitVec.ofNat 7 (wordOf cs))).returning (.chars (seqOf (DECODE (BitVec.ofNat 7 (wordOf cs)))))) :=
  (execDecodeCall_chars cs s).trans (by rw [if_pos h])

theorem exec_decodeCall_invalid {cs : List Char} (h : valid cs 7 = false) (s : State) :
    exec (.decodeCall (.chars cs)) s = .next s.raiseInvalidInput :=
  (execDecodeCall_chars cs s).trans (by simp [h])

/-- Settles O24: a value that is no sequence is a word, InvalidInput or another argument, and each is refused. -/
theorem argumentsThatAreNoSequenceAreRefused : Obligations.ArgumentsThatAreNoSequenceAreRefused := by
  intro a s h
  cases a with
  | chars cs => cases h
  | word n => exact ⟨rfl, rfl⟩
  | invalidInput => exact ⟨rfl, rfl⟩
  | other o => exact ⟨rfl, rfl⟩

/-! ### Next states (R93, log 3) -/

/-- Settles O19: the argument's word is driven and the closed form's string returned. -/
theorem validCallsDriveTheirSubBlock : Obligations.ValidCallsDriveTheirSubBlock := by
  refine fun cs s => ⟨fun h => ?_, fun h => ?_⟩
  · rw [exec_encodeCall_valid h, ENCODE_eq_closedCode]
    rfl
  · rw [exec_decodeCall_valid h, DECODE_eq_closedData]
    rfl

/-! ### What a call returns, a function of its argument alone (R93) -/

theorem resultOf_encodeCall (cs : List Char) (s : State) :
    resultOf (exec (.encodeCall (.chars cs)) s) = some (hostValueOf (encodeResult cs)) := by
  cases h : valid cs 4 with
  | true => simp [exec_encodeCall_valid h, encodeResult, h, resultOf, nextOf, hostValueOf]
  | false => simp [exec_encodeCall_invalid h, encodeResult, h, resultOf, nextOf, hostValueOf]

theorem resultOf_decodeCall (cs : List Char) (s : State) :
    resultOf (exec (.decodeCall (.chars cs)) s) = some (hostValueOf (decodeResult cs)) := by
  cases h : valid cs 7 with
  | true => simp [exec_decodeCall_valid h, decodeResult, h, resultOf, nextOf, hostValueOf]
  | false => simp [exec_decodeCall_invalid h, decodeResult, h, resultOf, nextOf, hostValueOf]

/-- Settles O20: a failed call only raises InvalidInput, and the result is that of the argument in both states. -/
theorem callsAreIndependentAndFailedOnesChangeNothing : Obligations.CallsAreIndependentAndFailedOnesChangeNothing :=
  fun cs s s' => ⟨fun h => exec_encodeCall_invalid h s, fun h => exec_decodeCall_invalid h s,
    ⟨_, resultOf_encodeCall cs s, resultOf_encodeCall cs s'⟩, ⟨_, resultOf_decodeCall cs s, resultOf_decodeCall cs s'⟩⟩

theorem resultOf_encodeCall_eq_invalidInput_iff {cs : List Char} {s : State} :
    resultOf (exec (.encodeCall (.chars cs)) s) = some .invalidInput ↔ valid cs 4 = false := by
  rw [resultOf_encodeCall, encodeResult]
  cases valid cs 4 <;> simp [hostValueOf]

theorem resultOf_decodeCall_eq_invalidInput_iff {cs : List Char} {s : State} :
    resultOf (exec (.decodeCall (.chars cs)) s) = some .invalidInput ↔ valid cs 7 = false := by
  rw [resultOf_decodeCall, decodeResult]
  cases valid cs 7 <;> simp [hostValueOf]

/-- Not valid, by the code points R90 gives: the two binary characters are U+0030 and U+0031. -/
theorem valid_eq_false_iff (cs : List Char) (n : Nat) :
    valid cs n = false ↔ ¬(cs.length = n ∧ ∀ c ∈ cs, c.toNat = 0x30 ∨ c.toNat = 0x31) := by
  have hcode : ∀ c : Char, (c = '0' ∨ c = '1') ↔ (c.toNat = 0x30 ∨ c.toNat = 0x31) :=
    fun c => or_congr Char.toNat_inj.symm Char.toNat_inj.symm
  rw [← Bool.not_eq_true, valid_iff]
  simp only [hcode]

/-- Settles O16: a call returns InvalidInput exactly where its argument is not valid. -/
theorem callsValidateLengthAndAlphabet : Obligations.CallsValidateLengthAndAlphabet := by
  refine fun cs s => ⟨resultOf_encodeCall_eq_invalidInput_iff.trans (valid_eq_false_iff cs 4),
    resultOf_decodeCall_eq_invalidInput_iff.trans (valid_eq_false_iff cs 7), ?_⟩
  rintro rfl
  exact ⟨resultOf_encodeCall_eq_invalidInput_iff.2 rfl, resultOf_decodeCall_eq_invalidInput_iff.2 rfl⟩

/-! ### The corner cases and worked examples (R91, R92) -/

theorem encodeCall_corner_cases_invalid :
    ∀ cs ∈ [[], ['1', '0', '1'], ['1', '0', '1', '1', '0'], ['1', '0', 'a', '1'], [' ', '1', '0', '1', '1']],
      valid cs 4 = false := by decide

theorem decodeCall_corner_cases_invalid :
    ∀ cs ∈ [['0', '0', '0', '0', '0', '0', '2'], ['0', '1', '1', '0', '0', '1'], ['0', '1', '1', '0', '0', '1', '1', '0']],
      valid cs 7 = false := by decide

theorem encodeResult_worked_examples :
    hostValueOf (encodeResult ['0', '0', '0', '0']) = .chars ['0', '0', '0', '0', '0', '0', '0'] ∧
      hostValueOf (encodeResult ['1', '0', '1', '1']) = .chars ['0', '1', '1', '0', '0', '1', '1'] := by decide

theorem decodeResult_worked_examples :
    hostValueOf (decodeResult ['1', '1', '1', '1', '1', '1', '1']) = .chars ['1', '1', '1', '1'] ∧
      hostValueOf (decodeResult ['0', '1', '1', '0', '0', '1', '1']) = .chars ['1', '0', '1', '1'] ∧
      hostValueOf (decodeResult ['1', '1', '1', '0', '0', '1', '0']) = .chars ['1', '0', '0', '0'] := by decide

/-- Settles O17, by the two cases of the call: a valid argument and any other. -/
theorem encodeCallReturnsCodewordString : Obligations.EncodeCallReturnsCodewordString := by
  obtain ⟨hzeros, hexample⟩ := encodeResult_worked_examples
  refine ⟨fun cs s => ?_, fun s =>
    ⟨fun cs hcs => resultOf_encodeCall_eq_invalidInput_iff.2 (encodeCall_corner_cases_invalid cs hcs),
      (resultOf_encodeCall _ s).trans (congrArg some hzeros), (resultOf_encodeCall _ s).trans (congrArg some hexample)⟩⟩
  cases h : valid cs 4 with
  | true => exact ⟨_, exec_encodeCall_valid h s, fun _ => rfl, nofun⟩
  | false => exact ⟨_, exec_encodeCall_invalid h s, nofun, fun _ => rfl⟩

/-- Settles O18, by the two cases of the call: a valid argument and any other. -/
theorem decodeCallReturnsPayloadString : Obligations.DecodeCallReturnsPayloadString := by
  obtain ⟨hones, hexample, htwoErrors⟩ := decodeResult_worked_examples
  refine ⟨fun cs s => ?_, fun s =>
    ⟨fun cs hcs => resultOf_decodeCall_eq_invalidInput_iff.2 (decodeCall_corner_cases_invalid cs hcs),
      (resultOf_decodeCall _ s).trans (congrArg some hones), (resultOf_decodeCall _ s).trans (congrArg some hexample),
      (resultOf_decodeCall _ s).trans (congrArg some htwoErrors)⟩⟩
  cases h : valid cs 7 with
  | true => exact ⟨_, exec_decodeCall_valid h s, fun _ => rfl, nofun⟩
  | false => exact ⟨_, exec_decodeCall_invalid h s, nofun, fun _ => rfl⟩

end Sys2Proof.Machine
end

section
/-! PROOFS. InvalidInput: its causes, and that the three sub-blocks never give it (60_exceptions.md). -/

namespace Sys2Proof.Machine

theorem resultOf_exec_of_next {i : Instr} {s t : State} (h : exec i s = .next t) : resultOf (exec i s) = t.result := by
  rw [h]
  rfl

/-- Not valid, by the two causes of R101: the length is wrong, or some character is neither '0' nor '1'. -/
theorem valid_eq_false_iff_cause {cs : List Char} {n : Nat} :
    valid cs n = false ↔ cs.length ≠ n ∨ ∃ c ∈ cs, c ≠ '0' ∧ c ≠ '1' := by
  rw [← Bool.not_eq_true, valid_iff, not_and_or]
  simp only [not_forall, not_or, exists_prop]

/-- Settles O22, by the operation: each sub-block's whole next state is known, and a host call is in no row of theirs. -/
theorem subBlocksRaiseNoError : Obligations.SubBlocksRaiseNoError := by
  intro i s h
  cases i with
  | encodePort d => exact ⟨_, _, exec_encodePort d s, rfl⟩
  | syndromePort c => exact ⟨_, _, exec_syndromePort c s, rfl⟩
  | decodePort c => exact ⟨_, _, exec_decodePort c s, rfl⟩
  | encodeCall a => simp [Instr.row] at h
  | decodeCall a => simp [Instr.row] at h

/-- What a sub-block returns is no InvalidInput. -/
theorem exec_port_result_ne_invalidInput {i : Instr} (h : i.row = .ENCODE ∨ i.row = .SYNDROME ∨ i.row = .DECODE)
    {s t : State} (ht : exec i s = .next t) : t.result ≠ some .invalidInput := by
  obtain ⟨u, n, hu, hresult⟩ := subBlocksRaiseNoError _ s h
  cases hu.symm.trans ht
  simp [hresult]

/-- The converse of `exec_next_of_wf`: a call on an argument that is no sequence is refused (R95). -/
theorem wf_of_exec_next {i : Instr} {s t : State} (h : exec i s = .next t) : i.wf = true := by
  cases i with
  | encodePort d => rfl
  | syndromePort c => rfl
  | decodePort c => rfl
  | encodeCall a =>
    refine Bool.of_not_eq_false fun ha => ?_
    cases (argumentsThatAreNoSequenceAreRefused a s ha).1.symm.trans h
  | decodeCall a =>
    refine Bool.of_not_eq_false fun ha => ?_
    cases (argumentsThatAreNoSequenceAreRefused a s ha).2.symm.trans h

/-- Settles O21, by the instruction: a sub-block returns a word, and a call that completes has a sequence as its argument
and returns InvalidInput exactly where that is not valid. -/
theorem invalidInputHasExactlyTheseCauses : Obligations.InvalidInputHasExactlyTheseCauses := by
  intro i s t h
  cases i with
  | encodePort d => simpa using exec_port_result_ne_invalidInput (.inl rfl) h
  | syndromePort c => simpa using exec_port_result_ne_invalidInput (.inr (.inl rfl)) h
  | decodePort c => simpa using exec_port_result_ne_invalidInput (.inr (.inr rfl)) h
  | encodeCall a =>
    obtain ⟨cs, rfl⟩ := isSequence_iff.1 (wf_of_exec_next h)
    rw [← resultOf_exec_of_next h, resultOf_encodeCall_eq_invalidInput_iff, valid_eq_false_iff_cause]
    simp
  | decodeCall a =>
    obtain ⟨cs, rfl⟩ := isSequence_iff.1 (wf_of_exec_next h)
    rw [← resultOf_exec_of_next h, resultOf_decodeCall_eq_invalidInput_iff, valid_eq_false_iff_cause]
    simp

/-- Settles O23: either cause makes the argument not valid, and every such call only raises InvalidInput (R105). -/
theorem bothCausesGiveOneInvalidInput : Obligations.BothCausesGiveOneInvalidInput := by
  refine fun cs cs' s => ⟨fun hlength hchar => ?_, fun hlength hchar => ?_⟩
  · exact ⟨s.raiseInvalidInput, exec_encodeCall_invalid (valid_eq_false_iff_cause.2 (.inl hlength)) s,
      exec_encodeCall_invalid (valid_eq_false_iff_cause.2 (.inr hchar)) s, rfl⟩
  · exact ⟨s.raiseInvalidInput, exec_decodeCall_invalid (valid_eq_false_iff_cause.2 (.inl hlength)) s,
      exec_decodeCall_invalid (valid_eq_false_iff_cause.2 (.inr hchar)) s, rfl⟩

end Sys2Proof.Machine
end

section
/-! PROOFS. Output ports: attaching a further sub-block (R111) and reading an output port (R108, R21). -/

namespace Sys2Proof.Machine

/-! ### Attaching a further sub-block -/

/-- An attached sub-block stands after the further ones there were. -/
theorem blockAt_attached (s : State) (b : SubBlock) :
    State.blockAt { s with further := s.further ++ [b] } (.further s.further.length) = .ok b :=
  blockAt_further.2 List.getElem?_concat_length

theorem blockAt_attached_other (s : State) (b : SubBlock) {p : Place} (hp : p ≠ .further s.further.length) :
    State.blockAt { s with further := s.further ++ [b] } p = s.blockAt p := by
  cases p with
  | encoder => rfl
  | syndromeCalculator => rfl
  | decoder => rfl
  | further k =>
    have hk : k ≠ s.further.length := fun h => hp (congrArg Place.further h)
    have hget : (s.further ++ [b])[k]? = s.further[k]? := by
      rcases Nat.lt_or_gt_of_ne hk with hlt | hgt
      · exact List.getElem?_append_left hlt
      · rw [List.getElem?_eq_none (by simpa using hgt), List.getElem?_eq_none hgt.le]
    simp only [State.blockAt, hget]

/-- Settles O33: an output is a function of the sub-block at its place, and attaching one changes one place. -/
theorem attachedSubBlockFollowsAtOnce : Obligations.AttachedSubBlockFollowsAtOnce :=
  fun b s => ⟨_, rfl, outputAt_of_blockAt (blockAt_attached s b), fun _ hp => outputAt_congr (blockAt_attached_other s b hp)⟩

/-! ### Reading an output port -/

theorem outputAt_encoder (s : State) : s.outputAt .encoder = .ok (closedCode s.dataIn).toNat := by
  rw [← ENCODE_eq_closedCode]
  rfl

theorem outputAt_syndromeCalculator (s : State) :
    s.outputAt .syndromeCalculator = .ok (closedSyndrome s.synCodeIn).toNat := by
  rw [← SYNDROME_eq_closedSyndrome]
  rfl

theorem outputAt_decoder (s : State) : s.outputAt .decoder = .ok (closedData s.decCodeIn).toNat := by
  rw [← DECODE_eq_closedData]
  rfl

/-- A read of an output there is binds it, and does nothing else. -/
theorem runAction_read {s : State} {p : Place} {w : Nat} (x : Var) (h : s.outputAt p = .ok w) :
    runAction (.read x p) s = .next (s.bindVar x (.word w)) := by
  simp [runAction, runRead, h]

/-- Settles O46: the step ends in one `bindVar`, and the three outputs of R1 are the closed forms. -/
theorem readingAPortBindsItsOutput : Obligations.ReadingAPortBindsItsOutput := by
  intro s x p rest hscript
  refine ⟨fun w hw => ?_, fun b => outputAt_of_blockAt, ?_, ?_, ?_⟩
  · have hstep : step s = .next (State.bindVar { s with script := rest } x (.word w)) :=
      (step_action hscript).trans (runAction_read x hw)
    exact ⟨_, hstep, lookup_insertVar_same _ _ _, rfl, fun y hy => lookup_insertVar_other _ _ hy⟩
  · rintro rfl
    exact outputAt_encoder s
  · rintro rfl
    exact outputAt_syndromeCalculator s
  · rintro rfl
    exact outputAt_decoder s

end Sys2Proof.Machine
end

section
/-! PROOFS. Sampling an output after its input changed (R123): the rule's value after the delay (R6), a free value before. -/

namespace Sys2Proof.Machine

theorem SubBlock.delay_pos (b : SubBlock) : 0 < b.delay := by
  cases b with
  | encoder _ => exact Config.T_PD_ENC.pos
  | syndromeCalculator _ => exact Config.T_PD_SYN.pos
  | decoder _ => exact Config.T_PD_DEC.pos

/-! ### The two cases of a sample -/

theorem sampleAt_settled {b : SubBlock} {n : Nat} (s : State) (x : Var) (old : Nat) (h : b.delay ≤ n) :
    s.sampleAt x old b n = s.bindVar x (.word b.output) := if_pos h

theorem sampleAt_early {b : SubBlock} {n : Nat} (s : State) (x : Var) (old : Nat) (h : n < b.delay) :
    s.sampleAt x old b n =
      { s.bindVar x (.word (b.unsettled s.draws old n)) with draws := s.draws + 1 } := if_neg h.not_ge

/-- A sample action at a place that takes the word samples there, in the state with the word driven. -/
theorem runAction_sample {s u : State} {p : Place} {w : Nat} {old b : SubBlock} (x : Var) (n : Nat)
    (hold : s.blockAt p = .ok old) (hdrive : s.driveAt p w = .ok u) (hnew : u.blockAt p = .ok b) :
    runAction (.sample x p w n) s = .next (u.sampleAt x old.input b n) := by
  simp [runAction, runSample, hold, hdrive, hnew]

/-- Settles O34: the action ends in one `sampleAt`, and driving the new word draws nothing, so an early sample is the draw
that `s` counts next. -/
theorem sampleSettlesAfterTheDelay : Obligations.SampleSettlesAfterTheDelay := by
  intro s u x p w n old b hold hdrive hnew
  have hrun := runAction_sample x n hold hdrive hnew
  obtain ⟨-, -, -, hdraws⟩ := driveAt_frame hdrive
  refine ⟨b.delay_pos, fun hsettled => ?_, fun hearly => ?_⟩
  · rw [hrun, sampleAt_settled u x _ hsettled]
  · rw [hrun, sampleAt_early u x _ hearly, hdraws]

end Sys2Proof.Machine
end

section
/-! PROOFS. The decoder under the rejected reading of its step 1, on a valid codeword (90_conflicts.md C1). -/

namespace Sys2Proof.Machine

/-- On a codeword the whole covering set XORs to 0 (R62), so the rejected reading counts the positions of the received parity
bits that are 1. -/
theorem rejectedErrorPos_ENCODE (d : W4) : rejectedErrorPos (ENCODE d) =
    (if (ENCODE d).getLsbD 0 then 1 else 0) + (if (ENCODE d).getLsbD 1 then 2 else 0) +
      (if (ENCODE d).getLsbD 3 then 4 else 0) := by
  have hcheck : ∀ p ∈ parityIndices, xorOver (ENCODE d) (coveringSet p) = false := fun p hp =>
    (mismatch_eq_xorOver _ hp).symm.trans (mismatch_ENCODE d hp)
  have h0 := hcheck 0 (by decide)
  have h1 := hcheck 1 (by decide)
  have h3 := hcheck 3 (by decide)
  simp only [rejectedErrorPos, parityIndices, List.foldl, h0, h1, h3]
  cases (ENCODE d).getLsbD 0 <;> cases (ENCODE d).getLsbD 1 <;> cases (ENCODE d).getLsbD 3 <;> rfl

theorem rejectedErrorPos_ENCODE_le (d : W4) : rejectedErrorPos (ENCODE d) ≤ 7 := by
  rw [rejectedErrorPos_ENCODE]
  split_ifs <;> decide

/-- R80: flipping the bit an error position names leaves the payload alone exactly at the parity positions, or where no bit is
named. -/
theorem extract_flipAt_eq_zero_iff : ∀ n ≤ 7,
    extract (if n != 0 then 1#7 <<< (n - 1) else 0) = 0 ↔ n ∈ [0, 1, 2, 4] := by decide

/-- A payload survives the rejected reading iff its codeword has at most one parity bit that is 1. -/
theorem rejectedDecode_ENCODE_eq_iff (d : W4) :
    rejectedDecode (ENCODE d) = d ↔ rejectedErrorPos (ENCODE d) ∈ [0, 1, 2, 4] := by
  rw [rejectedDecode, extract_xor, extract_ENCODE,
    ← extract_flipAt_eq_zero_iff _ (rejectedErrorPos_ENCODE_le d)]
  exact ⟨fun h => (BitVec.xor_right_inj d).1 (h.trans BitVec.xor_zero.symm), fun h => h ▸ BitVec.xor_zero⟩

/-- C1's list: the payloads with two or three parity bits that are 1. -/
theorem rejectedErrorPos_ENCODE_notMem_iff : ∀ d : W4, rejectedErrorPos (ENCODE d) ∉ [0, 1, 2, 4] ↔
    seqOf d ∈ [['0', '0', '0', '1'], ['0', '0', '1', '0'], ['0', '1', '0', '0'], ['0', '1', '1', '0'],
      ['1', '0', '0', '0'], ['1', '0', '1', '0'], ['1', '1', '0', '0'], ['1', '1', '1', '1']] := by
  intro d
  rw [rejectedErrorPos_ENCODE]
  simp (disch := decide) only [getLsbD_ENCODE, List.getD_cons_zero, List.getD_cons_succ]
  revert d
  decide

/-- Settles O36: the listed payloads are those whose codeword has more than one parity bit that is 1. -/
theorem rejectedReadingBreaksEightPayloads : Obligations.RejectedReadingBreaksEightPayloads :=
  ⟨fun d s => ⟨_, exec_encodePort d s,
    (not_congr (rejectedDecode_ENCODE_eq_iff d)).trans (rejectedErrorPos_ENCODE_notMem_iff d)⟩, by decide⟩

end Sys2Proof.Machine
end
